-- ==== Sys2Proof/Word.lean ====
section
/-! DEFINITION. The bit vectors and plain numbers the spec treats as words: slots, immediates, match registers, addresses. -/

namespace Sys2Proof

/-- One byte of a stored bundle (R57). -/
abbrev Byte := BitVec 8

/-- A 41-bit IA-64 instruction slot (R57). -/
abbrev Slot := BitVec 41

/-- The 24-bit immediate of `sum` and `rum`, a mask of PSR bits (R57, R100). -/
abbrev Imm24 := BitVec 24

/-- The number of a qualifying predicate register (R57). -/
abbrev PredReg := BitVec 6

/-- A value of PMC[8] or PMC[9], `PMC8W` = 64 bits (R5, R23). -/
abbrev MatchWord := BitVec 64

/-- An instruction or data address (R40). Its width `AW` is a parameter, so it is a number, bounded where it enters
the machine (log 20). -/
abbrev Addr := Nat

/-- The name by which the environment refers to an in-flight instruction: any type with decidable equality (R5, R29). -/
abbrev InstrId := Nat

/-- `0xffff_ffff_ffff_ffff`, the value of PMC[8] that constrains nothing (R53, R70). -/
def allOnes : MatchWord := 0xffffffffffffffff#64

end Sys2Proof
end

