-- ==== Sys2Proof/Config.lean ====
section
/-! DEFINITION. What the source leaves open and a run fixes: the opaque types, the parameters of R5 with the only laws the
spec gives them, and the free values (`draw`, R8). -/

namespace Sys2Proof

/-! Opaque types (R5, R16, R27). Each is a plain code so that a state can be compared and written out; no rule looks at the
code (log 6). -/

/-- `Enc`: an instruction encoding as the opcode matchers see it (R51). -/
structure Enc where
  code : Nat
  deriving DecidableEq, Repr, Inhabited

/-- `EventId`: an event identifier, selected by `PMC[i].es` (R18). -/
structure EventId where
  code : Nat
  deriving DecidableEq, Repr, Inhabited

/-- `UMask`: a value of the unit mask of a monitor (R22). -/
structure UMask where
  code : Nat
  deriving DecidableEq, Repr, Inhabited

/-- Event-specific information for the unit mask, `occ.unit` (R73, R80). -/
structure UnitInfo where
  code : Nat
  deriving DecidableEq, Repr, Inhabited

/-- `IBRState`: the whole file of IBRs (R27). -/
structure IBRState where
  code : Nat
  deriving DecidableEq, Repr, Inhabited

/-- `DBRState`: the whole file of DBRs (R27). -/
structure DBRState where
  code : Nat
  deriving DecidableEq, Repr, Inhabited

/-- `rest`: the fields of a PMC register that the source does not name (R16). -/
structure Rest where
  code : Nat
  deriving DecidableEq, Repr, Inhabited

/-- The classes of events for the purpose of tagging (R72). -/
inductive EventClass where
  | tagged8
  | tagged9
  | downstream
  | memory
  | untagged
  deriving DecidableEq, Repr, Inhabited

/-- The execution-unit type a template gives a slot (R57). -/
inductive SlotUnit where
  | M
  | I
  | F
  | B
  | LX
  deriving DecidableEq, Repr, Inhabited

/-- Which of the three slots of a bundle (R57). -/
inductive SlotNumber where
  | slot0
  | slot1
  | slot2
  deriving DecidableEq, Repr, Inhabited

/-- One value for each of the four generic monitors ("the four generic performance counters", R5, R16). -/
structure Four (α : Type) where
  m0 : α
  m1 : α
  m2 : α
  m3 : α
  deriving DecidableEq, Repr, Inhabited

/-- The register numbers to which the source gives other functions, so that no generic monitor has one (R16, D23). -/
def namedRegisters : List Nat := [0, 8, 9, 11, 13]

/-- The parameters of R5. A field's default is the value the spec suggests, or some lawful value where it suggests none; the
machine's own parameters `Config.params` are opaque, so nothing rests on a default. The proof fields are the only laws the
spec gives (log 5). -/
structure Params where
  /-- Width of addresses (R5, D1). -/
  AW : Nat := 64
  /-- Width of the counters (R5, D3). -/
  CW : Nat := 32
  /-- The register numbers of the four generic monitors (R5, D23). -/
  monitorIndex : Four Nat := ⟨4, 5, 6, 7⟩
  monitors_distinct :
    [monitorIndex.m0, monitorIndex.m1, monitorIndex.m2, monitorIndex.m3].Nodup := by decide
  monitors_not_named :
    ∀ i ∈ [monitorIndex.m0, monitorIndex.m1, monitorIndex.m2, monitorIndex.m3], i ∉ namedRegisters := by decide
  /-- "Is IA-64 instruction pointer in IBR range?" (R5, R60, D4). -/
  inIBRRange : IBRState → Rest → Addr → Bool := fun _ _ _ => true
  /-- "Is IA-64 data address in DBR range?" (R5, R68, D4). -/
  inDBRRange : DBRState → Rest → Addr → Bool := fun _ _ _ => true
  /-- The programmable opcode match and mask function (R63). -/
  opmatch : MatchWord → Enc → Bool := fun _ _ => true
  /-- The one law of `opmatch`: all ones matches every encoding (R63). -/
  opmatch_allOnes : ∀ e, opmatch allOnes e = true := by intro; rfl
  /-- Does the event allow a unit mask? (R80) -/
  allowsUnitMask : EventId → Bool := fun _ => false
  /-- The event-specific unit-mask filter (R80, D11). -/
  unitMaskOK : UMask → EventId → Option UnitInfo → Bool := fun _ _ _ => true
  /-- "an event that allows none has no filter to fail" (R80). -/
  unitMaskOK_of_not_allowed : ∀ m e u, allowsUnitMask e = false → unitMaskOK m e u = true := by intros; rfl
  /-- The event that counts `Tag(PMC[8])` of a retired instruction (R66, D10). -/
  taggedRetired8 : EventId := ⟨8⟩
  /-- The event that counts `Tag(PMC[9])` of a retired instruction (R66, D10). -/
  taggedRetired9 : EventId := ⟨9⟩
  taggedRetired_distinct : taggedRetired8 ≠ taggedRetired9 := by decide
  /-- Which class an event belongs to (R72, D9). -/
  eventClass : EventId → EventClass := fun e => if e = ⟨8⟩ then .tagged8 else if e = ⟨9⟩ then .tagged9 else .untagged
  eventClass_taggedRetired8 : eventClass taggedRetired8 = .tagged8 := by decide
  eventClass_taggedRetired9 : eventClass taggedRetired9 = .tagged9 := by decide
  /-- Does the PMC[9] variant of the retirement event also need `Tag(PMC[8])`? (R73, D10, C9) -/
  tag9AlsoNeedsTag8 : Bool := false
  /-- The value of `PMC[i].ism` called "IA-64 only"; its number is not fixed (R55, C7, D12). -/
  ismIA64Only : BitVec 2 := 1
  /-- Does this instruction set mask count under this `PSR.is`? (R83, D12) -/
  ismAllows : BitVec 2 → Bool → Bool := fun _ is => !is
  ismAllows_ia64Only_ia64 : ismAllows ismIA64Only false = true := by decide
  ismAllows_ia64Only_ia32 : ismAllows ismIA64Only true = false := by decide
  /-- `PSR.is` after an interruption is delivered (R5, D17). -/
  isAfterInterruption : Bool := false
  /-- The unit type the template gives each slot: R57 says that it does, and gives no table (log 18). -/
  slotUnit : BitVec 5 → SlotNumber → SlotUnit := fun _ _ => .M
  deriving Inhabited

namespace Config

/-- The parameters of the machine: open (R5, log 5). -/
opaque params : Params

/-- The free values, `draw(Bool)` (R8): the n-th one drawn in a run. Nothing constrains them (log 4). -/
opaque draw : Nat → Bool

end Config

end Sys2Proof
end

