-- ==== Sys2Proof/Syntax.lean ====
section
/-! DEFINITION. The instructions of the opcode table: its two rows, `sum` and `rum` (R59). The other steps of R110 are no
instructions and have no row; they are the inputs of Machine/State.lean. -/

namespace Sys2Proof

/-- One constructor per row of the opcode table (R57, R59, R100, R101). `imm24` is the mask, `qp` the number of the
qualifying predicate register. -/
inductive Instr where
  | sum (imm24 : Imm24) (qp : PredReg)
  | rum (imm24 : Imm24) (qp : PredReg)
  deriving DecidableEq, Repr

end Sys2Proof
end

