-- ==== Sys2Proof/WellFormed.lean ====
section
/-! DEFINITION. Which instructions are well formed: those whose mask selects bits of the user mask only (R58, R100, R101). -/

namespace Sys2Proof

/-- `imm24[0] = 1 or imm24[23:6] != 0`: a bit outside the user mask PSR(5:1) is selected (R58, R100). -/
def Imm24.selectsReserved (imm24 : Imm24) : Bool :=
  imm24.getLsbD 0 || imm24.extractLsb' 6 18 != 0#18

/-- The mask of the instruction lies within the user mask. -/
def Instr.wellFormed : Instr → Bool
  | .sum imm24 _ => !imm24.selectsReserved
  | .rum imm24 _ => !imm24.selectsReserved

end Sys2Proof
end

