-- ==== Sys2Proof/Decode.lean ====
section
/-! DEFINITION. The encoding of R57 (general knowledge, log 18): format M44, the bundle, the decoder, which is total and
rejects by name, and after it the encoder. -/

namespace Sys2Proof

/-- Why bits are no instruction of this spec. -/
inductive DecodeReject where
  /-- The slot is not M-type, and the patterns of `sum` and `rum` are "valid only in an M-type slot" (R57). Safe. -/
  | notMUnit
  /-- An M-type slot that matches neither row of the opcode table: an instruction the source does not describe (R59). Safe. -/
  | notInTable
  /-- A bundle is 16 bytes (R57) and another number was given. Safe. -/
  | bundleLength
  deriving DecidableEq, Repr

/-- A bundle: three slots and a template (R57). -/
structure Bundle where
  template : BitVec 5
  slot0 : Slot
  slot1 : Slot
  slot2 : Slot
  deriving DecidableEq, Repr

/-! ## Fields of a slot in format M44 (R57) -/

/-- Bits 40:37. -/
def opcodeField (w : Slot) : BitVec 4 := w.extractLsb' 37 4

/-- Bits 35:33. -/
def x3Field (w : Slot) : BitVec 3 := w.extractLsb' 33 3

/-- Bits 30:27. -/
def x4Field (w : Slot) : BitVec 4 := w.extractLsb' 27 4

/-- `imm24[23] = i`, `imm24[22:21] = i2d`, `imm24[20:0] = imm21a`, each zero-extended and put in its place (R57). -/
def imm24Field (w : Slot) : Imm24 :=
  (w.extractLsb' 36 1).setWidth 24 <<< 23 ||| (w.extractLsb' 31 2).setWidth 24 <<< 21 |||
    (w.extractLsb' 6 21).setWidth 24

/-- Bits 5:0. -/
def qpField (w : Slot) : PredReg := w.extractLsb' 0 6

/-! ## The decoder -/

/-- An M-type slot against the two rows of the opcode table (R57, R59). -/
def decodeM (w : Slot) : Except DecodeReject Instr :=
  if opcodeField w = 0#4 ∧ x3Field w = 0#3 then
    if x4Field w = 4#4 then .ok (.sum (imm24Field w) (qpField w))
    else if x4Field w = 5#4 then .ok (.rum (imm24Field w) (qpField w))
    else .error .notInTable
  else .error .notInTable

/-- A slot of a given unit type: `sum` and `rum` are "valid only in an M-type slot" (R57). -/
def decodeSlot (unit : SlotUnit) (w : Slot) : Except DecodeReject Instr :=
  match unit with
  | .M => decodeM w
  | .I | .F | .B | .LX => .error .notMUnit

/-- The number that bytes stored little-endian stand for. -/
def littleEndian : List Byte → Nat
  | [] => 0
  | b :: bs => b.toNat + 256 * littleEndian bs

/-- "template in bundle bits 4:0, slot 0 in bits 45:5, slot 1 in bits 86:46, slot 2 in bits 127:87" (R57). -/
def splitBundle (w : BitVec 128) : Bundle :=
  { template := w.extractLsb' 0 5
    slot0 := w.extractLsb' 5 41
    slot1 := w.extractLsb' 46 41
    slot2 := w.extractLsb' 87 41 }

/-- A bundle from its 16 bytes (R57). -/
def decodeBundle (bytes : List Byte) : Except DecodeReject Bundle :=
  if bytes.length = 16 then .ok (splitBundle (BitVec.ofNat 128 (littleEndian bytes)))
  else .error .bundleLength

def Bundle.slot (b : Bundle) : SlotNumber → Slot
  | .slot0 => b.slot0
  | .slot1 => b.slot1
  | .slot2 => b.slot2

/-- The instruction in one slot of a stored bundle, the template giving the slot's unit type (R57). -/
def decodeInBundle (p : Params) (bytes : List Byte) (n : SlotNumber) : Except DecodeReject Instr :=
  match decodeBundle bytes with
  | .error r => .error r
  | .ok b => decodeSlot (p.slotUnit b.template n) (b.slot n)

/-- The host's reading of a table word: an M-type slot of 41 bits, or nothing where a bit above the slot is set. -/
def decodeTableWord (nbits w : Nat) : Option Instr :=
  let v := w % 2 ^ nbits
  if v < 2 ^ 41 then
    match decodeSlot .M (BitVec.ofNat 41 v) with
    | .ok i => some i
    | .error _ => none
  else none

/-! ## The encoder -/

/-- Format M44: i at bit 36, i2d at 31, x4 at 27, imm21a at 6, qp at 0; opcode and x3 are zero (R57). -/
def encodeM44 (x4 : BitVec 4) (imm24 : Imm24) (qp : PredReg) : Slot :=
  (imm24.extractLsb' 23 1).setWidth 41 <<< 36 ||| (imm24.extractLsb' 21 2).setWidth 41 <<< 31 |||
    x4.setWidth 41 <<< 27 ||| (imm24.extractLsb' 0 21).setWidth 41 <<< 6 ||| qp.setWidth 41

/-- The slot of an instruction (R57). -/
def encode : Instr → Slot
  | .sum imm24 qp => encodeM44 4#4 imm24 qp
  | .rum imm24 qp => encodeM44 5#4 imm24 qp

/-- The 128 bits of a bundle (R57). -/
def joinBundle (b : Bundle) : BitVec 128 :=
  b.slot2.setWidth 128 <<< 87 ||| b.slot1.setWidth 128 <<< 46 ||| b.slot0.setWidth 128 <<< 5 ||| b.template.setWidth 128

/-- The bytes of a number, the least significant first. -/
def toLittleEndian : Nat → Nat → List Byte
  | 0, _ => []
  | n + 1, v => BitVec.ofNat 8 v :: toLittleEndian n (v / 256)

/-- The 16 bytes of a bundle (R57). -/
def encodeBundle (b : Bundle) : List Byte := toLittleEndian 16 (joinBundle b).toNat

/-! ## The table's own columns -/

/-- The mask column of the opcode table, the same for both rows (R57). -/
def rowMask : Slot := 0x1EE78000000#41

/-- The match column of the opcode table (R57). -/
def rowMatch : Instr → Slot
  | .sum _ _ => 0x00020000000#41
  | .rum _ _ => 0x00028000000#41

end Sys2Proof
end

