-- ==== Sys2Proof/Machine/State.lean ====
section
/-! DEFINITION. The state the spec gives the machine (10_state.md), as plain data; the inputs the environment presents (R110);
the reasons a step can stop; the state the model calls reset. -/

namespace Sys2Proof.Machine

/-- The four fields of the processor status register that the source names (R10 to R14). A one-bit field is a Bool, true for
one. `is` false: IA-64 code is executing; `is` true: IA-32 code (R11). -/
structure PSR where
  is : Bool
  cpl : BitVec 2
  up : Bool
  pp : Bool
  deriving DecidableEq, Repr

/-- The default control register (R15). -/
structure DCR where
  pp : Bool
  deriving DecidableEq, Repr

/-- PMC[0] (R16, R17). -/
structure PMC0 where
  fr : Bool
  rest : Rest
  deriving DecidableEq, Repr

/-- PMC[11] (R16, R24). -/
structure PMC11 where
  pt : Bool
  rest : Rest
  deriving DecidableEq, Repr

/-- PMC[13] (R16, R25). -/
structure PMC13 where
  ta : Bool
  rest : Rest
  deriving DecidableEq, Repr

/-- PMC[i], the configuration register of a generic monitor (R16, R18 to R22). -/
structure PMCGeneric where
  es : EventId
  plm : BitVec 4
  pm : Bool
  ism : BitVec 2
  umask : UMask
  rest : Rest
  deriving DecidableEq, Repr

/-- What an instruction carries between its fetch and its retirement (R29). -/
structure InFlight where
  ip : Addr
  enc : Option Enc
  ibrTag : Bool
  tag8 : Option Bool
  tag9 : Option Bool
  deriving DecidableEq, Repr

/-- The finite map of R29, kept with its ids strictly rising. -/
abbrev InFlightMap := List (InstrId × InFlight)

/-- The register and value of a `WritePMC(i, value)` (R103): one constructor for each PMC the source names, and `pmc i` for
the configuration register of monitor i. -/
inductive PMCWrite where
  | pmc0 (value : PMC0)
  | pmc8 (value : MatchWord)
  | pmc9 (value : MatchWord)
  | pmc11 (value : PMC11)
  | pmc13 (value : PMC13)
  | pmc (i : Nat) (value : PMCGeneric)
  deriving DecidableEq, Repr

/-- An event occurrence as the environment presents it: it names the causing instruction by its id (R73). -/
structure EventInput where
  ev : EventId
  instr : Option InstrId
  daddr : Option Addr
  unit : Option UnitInfo
  deriving DecidableEq, Repr

/-- An event occurrence with the in-flight record looked up (R73). -/
structure Occurrence where
  ev : EventId
  instr : Option InFlight
  daddr : Option Addr
  unit : Option UnitInfo
  deriving DecidableEq, Repr

/-- The steps of R110, as the environment presents them. The instructions of the opcode table arrive as a slot of a known unit
type, as one slot of a stored bundle, or already decoded. -/
inductive Input where
  | slot (unit : SlotUnit) (bits : Slot)
  | bundle (bytes : List Byte) (n : SlotNumber)
  | instr (i : Instr)
  | fetch (id : InstrId) (ip : Addr)
  | issue (id : InstrId) (enc : Enc)
  | retire (id : InstrId)
  | flush (id : InstrId)
  | event (occ : EventInput)
  | setPSRpp (v : Bool)
  | writePMC (w : PMCWrite)
  | writePMD (i : Nat) (value : Nat)
  | writeIBR (value : IBRState)
  | writeDBR (value : DBRState)
  | writeDCRpp (v : Bool)
  | restorePSR (v : PSR)
  | setCpl (v : BitVec 2)
  | setIs (v : Bool)
  | interruption
  deriving DecidableEq, Repr

/-- Everything the spec gives the machine (10_state.md), and the model's own `drawCount` (log 4) and `inputs` (log 1). -/
structure State where
  psr : PSR
  dcr : DCR
  pmc0 : PMC0
  pmc8 : MatchWord
  pmc9 : MatchWord
  pmc11 : PMC11
  pmc13 : PMC13
  pmc : Four PMCGeneric
  pmd : Four Nat
  ibr : IBRState
  dbr : DBRState
  inflight : InFlightMap
  overflowPending : Bool
  drawCount : Nat
  inputs : List Input
  deriving DecidableEq, Repr

/-- The source names no exception (R123); the machine has one stuck state. -/
inductive Fault where
  /-- Raised by `step` when the given finite sequence of inputs has ended (R147). Safe: nothing happens without an input. -/
  | endOfRun
  deriving DecidableEq, Repr

/-- Steps the spec or the model gives no meaning. Every one is safe: the machine stops where the hardware goes on. -/
inductive Refusal where
  /-- Raised by a dispatch arm whose instruction has no meaning yet: none at present. Safe. -/
  | notModelled (mnemonic : String)
  /-- Raised by `sum` and `rum` on a mask with a bit outside the user mask (R100, R101, U14). Safe. -/
  | reservedField
  /-- Raised by the privileged operations of R102 to R108 at a level other than 0 (U12, U13, U15). Safe (log 14). -/
  | privileged
  /-- Raised by `slot` and `bundle` inputs whose bits are no instruction of this spec (R57, R59). Safe (log 19). -/
  | notDecoded (reason : DecodeReject)
  /-- Raised by `slot` and `bundle` inputs under `PSR.is` = 1: the bytes are IA-32 code (R52). Safe (log 19). -/
  | ia32Code
  /-- Raised by `Fetch` of an id that is in flight (R61, U17). Safe. -/
  | idInUse
  /-- Raised by `Issue`, `Retire`, `Flush` and `Event` naming an id that is not in flight (U17, R73). Safe. -/
  | idUnknown
  /-- Raised by `Issue` of an instruction that has its tags (R64). Safe. -/
  | alreadyIssued
  /-- Raised by `Retire` of an instruction that has no tags yet (R66). Safe. -/
  | notIssued
  /-- Raised by `Event` without the tag or the data address its class needs (R73, U16). Safe. -/
  | illFormedOccurrence
  /-- Raised by `Fetch` and `Event` with an address that has no `AW` bits (R40). Safe (log 20). -/
  | addressTooWide
  /-- Raised by `WritePMD` with a value that has no `CW` bits (R105). Safe (log 20). -/
  | counterTooWide
  /-- Raised by `WritePMC` and `WritePMD` with an index that is no register of the spec (R16, R26). Safe (log 22). -/
  | noSuchMonitor
  deriving DecidableEq, Repr

/-- What a step of this machine answers. -/
abbrev Result := Host.Outcome State Fault Refusal

/-- The configuration register a monitor holds at reset (log 3). -/
def PMCGeneric.reset : PMCGeneric :=
  { es := ⟨0⟩, plm := 0#4, pm := false, ism := 0#2, umask := ⟨0⟩, rest := ⟨0⟩ }

/-- The state after reset. The source gives no reset value (R32, R140); every register value here is the model's choice of
zero (log 3). `inflight` empty and `overflowPending` false are D21's. -/
def State.reset : State :=
  { psr := { is := false, cpl := 0#2, up := false, pp := false }
    dcr := { pp := false }
    pmc0 := { fr := false, rest := ⟨0⟩ }
    pmc8 := 0#64
    pmc9 := 0#64
    pmc11 := { pt := false, rest := ⟨0⟩ }
    pmc13 := { ta := false, rest := ⟨0⟩ }
    pmc := ⟨PMCGeneric.reset, PMCGeneric.reset, PMCGeneric.reset, PMCGeneric.reset⟩
    pmd := ⟨0, 0, 0, 0⟩
    ibr := ⟨0⟩
    dbr := ⟨0⟩
    inflight := []
    overflowPending := false
    drawCount := 0
    inputs := [] }

end Sys2Proof.Machine
end

