-- ==== Sys2Proof/Machine/Ops.lean ====
section
/-! DEFINITION. The shared operations: the four monitors, the in-flight map, free values, the privilege gate, delivering an
interruption and restoring a PSR. -/

namespace Sys2Proof

/-! ## The four monitors -/

def Four.get {α : Type} (f : Four α) : Fin 4 → α
  | 0 => f.m0
  | 1 => f.m1
  | 2 => f.m2
  | 3 => f.m3

def Four.set {α : Type} (f : Four α) (k : Fin 4) (v : α) : Four α :=
  match k with
  | 0 => { f with m0 := v }
  | 1 => { f with m1 := v }
  | 2 => { f with m2 := v }
  | 3 => { f with m3 := v }

/-- The four values of a function of the monitor. -/
def Four.of {α : Type} (g : Fin 4 → α) : Four α := ⟨g 0, g 1, g 2, g 3⟩

/-- Which of the four monitors has register number i, if any (R5 `GenericMonitors`, R16). -/
def Params.monitorAt (p : Params) (i : Nat) : Option (Fin 4) :=
  if i = p.monitorIndex.m0 then some 0
  else if i = p.monitorIndex.m1 then some 1
  else if i = p.monitorIndex.m2 then some 2
  else if i = p.monitorIndex.m3 then some 3
  else none

end Sys2Proof

namespace Sys2Proof.Machine

/-! ## The in-flight map (R29): every operation keeps its ids strictly rising -/

/-- `inflight[id]`, if id is a key. -/
def findId : InFlightMap → InstrId → Option InFlight
  | [], _ => none
  | (k, r) :: m, id => if k = id then some r else findId m id

/-- `inflight[id] <- r`. -/
def putId : InFlightMap → InstrId → InFlight → InFlightMap
  | [], id, r => [(id, r)]
  | (k, x) :: m, id, r =>
    if id < k then (id, r) :: (k, x) :: m
    else if id = k then (id, r) :: m
    else (k, x) :: putId m id r

/-- `remove inflight[id]`. -/
def removeId : InFlightMap → InstrId → InFlightMap
  | [], _ => []
  | (k, x) :: m, id => if k = id then removeId m id else (k, x) :: removeId m id

/-- The canonical form: ids strictly rising. -/
def InFlightMap.wf : InFlightMap → Bool
  | [] => true
  | [_] => true
  | (k, _) :: (l, y) :: m => decide (k < l) && InFlightMap.wf ((l, y) :: m)

/-! ## Free values (R8, log 4) -/

/-- The j-th free value that is still unused in s. -/
def State.drawAt (s : State) (j : Nat) : Bool := Config.draw (s.drawCount + j)

/-- n free values have been used. -/
def State.addDraws (s : State) (n : Nat) : State := { s with drawCount := s.drawCount + n }

/-! ## Named updates -/

def State.setPSR (s : State) (v : PSR) : State := { s with psr := v }

def State.setInflight (s : State) (m : InFlightMap) : State := { s with inflight := m }

/-- `PMD[i] <- v` for the monitor in place k. -/
def State.setCounter (s : State) (k : Fin 4) (v : Nat) : State := { s with pmd := s.pmd.set k v }

/-- `PMC[i] <- v` for the monitor in place k. -/
def State.setMonitor (s : State) (k : Fin 4) (v : PMCGeneric) : State := { s with pmc := s.pmc.set k v }

/-! ## The privilege gate of R102 to R108 -/

/-- `if PSR.cpl != 0 then refuse privileged` (R102, R103, R105 to R108, D18, D19). -/
def privileged (s : State) (act : Result) : Result :=
  if s.psr.cpl = 0#2 then act else .refused .privileged

/-! ## Interruption and return -/

/-- Delivering an interruption (R120): DCR.pp is copied into PSR.pp, handlers run at level 0, PSR.up is unchanged (D17, log
13) and PSR.is is the parameter. The source gives no saved register and no vector (N29). -/
def takeInterruption (p : Params) (s : State) : State :=
  s.setPSR { is := p.isAfterInterruption, cpl := 0#2, up := s.psr.up, pp := s.dcr.pp }

/-- Installing a saved PSR, which is also the return from an interruption (R108, R125). -/
def installPSR (v : PSR) (s : State) : State := s.setPSR v

end Sys2Proof.Machine
end

