-- ==== Sys2Proof/Machine/Operands.lean ====
section
/-! DEFINITION. The operands of `sum` and `rum`: the mask `imm24` and the qualifying predicate `qp` (R57, R100). -/

namespace Sys2Proof.Machine

/-- Mask bit 2 selects `PSR.up` (R100, G4). -/
def selectsUp (imm24 : Imm24) : Bool := imm24.getLsbD 2

/-- "with qp = 0 the instruction always executes" (R57). The other predicate registers are no state of the spec (R30), so
whether one holds is a free value (log 17). -/
def predicateHolds (qp : PredReg) (s : State) : Bool :=
  if qp = 0#6 then true else s.drawAt 0

/-- How many free values reading the predicate uses. -/
def predicateDraws (qp : PredReg) : Nat := if qp = 0#6 then 0 else 1

end Sys2Proof.Machine
end

