-- ==== Sys2Proof/Machine/Flags.lean ====
section
/-! DEFINITION. The flag that `sum` and `rum` write: `PSR.up`, and nothing else of this state (R100, R101). -/

namespace Sys2Proof.Machine

/-- `if imm24[2] = 1 then PSR.up <- value`; every other bit of the mask selects PSR bits outside this state (R100, R101). -/
def writeUserMask (imm24 : Imm24) (value : Bool) (psr : PSR) : PSR :=
  if selectsUp imm24 then { psr with up := value } else psr

end Sys2Proof.Machine
end

