-- ==== Sys2Proof/Machine/UserMask.lean ====
section
/-! DEFINITION. The meanings of the two instructions of the opcode table, `sum` and `rum` (R100, R101). -/

namespace Sys2Proof.Machine

/-- What `sum` and `rum` share: under a predicate that holds, a mask with a reserved bit is refused and a mask without one
writes `value` to the selected `PSR.up`; under one that does not hold the instruction has no effect (log 17). Neither needs a
privilege level (R100). -/
def userMaskInstr (value : Bool) (imm24 : Imm24) (qp : PredReg) (s : State) : Result :=
  if imm24.selectsReserved then
    if predicateHolds qp s then .refused .reservedField else .next (s.addDraws (predicateDraws qp))
  else
    .next ((s.setPSR (if predicateHolds qp s then writeUserMask imm24 value s.psr else s.psr)).addDraws
      (predicateDraws qp))

/-- `sum imm24`: set user mask (R100). -/
def execSum (imm24 : Imm24) (qp : PredReg) (s : State) : Result := userMaskInstr true imm24 qp s

/-- `rum imm24`: reset user mask (R101). -/
def execRum (imm24 : Imm24) (qp : PredReg) (s : State) : Result := userMaskInstr false imm24 qp s

end Sys2Proof.Machine
end

