-- ==== Sys2Proof/Machine/Dispatch.lean ====
section
/-! DEFINITION. One arm per instruction of the opcode table. -/

namespace Sys2Proof.Machine

def exec (i : Instr) (s : State) : Host.Outcome State Fault Refusal :=
  match i with
  | .sum imm24 qp => Sys2Proof.Machine.execSum imm24 qp s
  | .rum imm24 qp => Sys2Proof.Machine.execRum imm24 qp s

end Sys2Proof.Machine
end

