-- ==== Sys2Proof/Machine/Tagging.lean ====
section
/-! DEFINITION. Instruction tagging: the instruction address range check, the opcode matchers, the data address range check and
the tag check of an occurrence (40_tagging.md). -/

namespace Sys2Proof.Machine

/-! ## The instruction address range check and `Fetch` -/

/-- `IBRRangeTag(ip)` (R60). -/
def ibrRangeTag (p : Params) (s : State) (ip : Addr) : Bool :=
  s.pmc13.ta || p.inIBRRange s.ibr s.pmc13.rest ip

/-- `Fetch(id, ip)` (R61): the tag is computed now and carried; under IA-32 code it is a free value (R71, D7).
That an id in flight is refused before an address too wide is looked at is a DESIGN CHOICE (log 20). -/
def fetchStep (p : Params) (id : InstrId) (ip : Addr) (s : State) : Result :=
  if (findId s.inflight id).isSome then .refused .idInUse
  else if 2 ^ p.AW ≤ ip then .refused .addressTooWide
  else if s.psr.is then
    .next ((s.setInflight (putId s.inflight id
      { ip := ip, enc := none, ibrTag := s.drawAt 0, tag8 := none, tag9 := none })).addDraws 1)
  else
    .next (s.setInflight (putId s.inflight id
      { ip := ip, enc := none, ibrTag := ibrRangeTag p s ip, tag8 := none, tag9 := none }))

/-! ## The opcode matchers and `Issue` -/

/-- `IBRRangeTag and opmatch(PMC[8] or PMC[9], enc)` (R64, R65, D6). -/
def opcodeTag (p : Params) (reg : MatchWord) (enc : Enc) (r : InFlight) : Bool :=
  r.ibrTag && p.opmatch reg enc

/-- `Issue(id, enc)` (R64, R65): both combined tags are computed now and carried; under IA-32 code they are free values (R71). -/
def issueStep (p : Params) (id : InstrId) (enc : Enc) (s : State) : Result :=
  match findId s.inflight id with
  | none => .refused .idUnknown
  | some r =>
    if r.tag8.isSome then .refused .alreadyIssued
    else if s.psr.is then
      .next ((s.setInflight (putId s.inflight id
        { r with enc := some enc, tag8 := some (s.drawAt 0), tag9 := some (s.drawAt 1) })).addDraws 2)
    else
      .next (s.setInflight (putId s.inflight id
        { r with enc := some enc
                 tag8 := some (opcodeTag p s.pmc8 enc r)
                 tag9 := some (opcodeTag p s.pmc9 enc r) }))

/-- `Flush(id)` (R110). -/
def flushStep (id : InstrId) (s : State) : Result :=
  match findId s.inflight id with
  | none => .refused .idUnknown
  | some _ => .next (s.setInflight (removeId s.inflight id))

/-! ## The data address range check -/

/-- `DBRRangeTag(daddr)` (R68); under IA-32 code it is a free value unless `PMC[11].pt` is one (R71, D8). -/
def dbrRangeTag (p : Params) (s : State) (daddr : Addr) : Bool :=
  s.pmc11.pt || (if s.psr.is then s.drawAt 0 else p.inDBRRange s.dbr s.pmc11.rest daddr)

/-- How many free values the tag check of an event of this class uses: one, for the whole occurrence (U9). -/
def dbrDraws (c : EventClass) (s : State) : Nat :=
  match c with
  | .memory => if s.psr.is && !s.pmc11.pt then 1 else 0
  | .tagged8 | .tagged9 | .downstream | .untagged => 0

/-! ## The tag check of an occurrence -/

/-- `occ.instr.tag8`, if it is there. -/
def Occurrence.tag8 (o : Occurrence) : Option Bool := o.instr.bind InFlight.tag8

/-- `occ.instr.tag9`, if it is there. -/
def Occurrence.tag9 (o : Occurrence) : Option Bool := o.instr.bind InFlight.tag9

/-- `tagOK(occ)` (R73); none where a tag or the data address that the class needs is missing (D9). -/
def tagOK (p : Params) (s : State) (o : Occurrence) : Option Bool :=
  match p.eventClass o.ev with
  | .untagged => some true
  | .tagged8 => o.tag8
  | .tagged9 =>
    match p.tag9AlsoNeedsTag8, o.tag8, o.tag9 with
    | false, _, t9 => t9
    | true, some a, some b => some (a && b)
    | true, _, _ => none
  | .downstream => o.tag8
  | .memory =>
    match o.tag8, o.daddr with
    | some a, some d => some (a && dbrRangeTag p s d)
    | _, _ => none

end Sys2Proof.Machine
end

