-- ==== Sys2Proof/Machine/Qualify.lean ====
section
/-! DEFINITION. The general checks, the qualification of an event occurrence, counting and overflow, and the steps `Event` and
`Retire` (41_monitor_enable.md, R66). -/

namespace Sys2Proof.Machine

/-! ## The checks of one monitor -/

/-- `selectOK` (R85). -/
def selectOK (m : PMCGeneric) (ev : EventId) : Bool := decide (m.es = ev)

/-- `umaskOK` (R80). -/
def umaskOK (p : Params) (m : PMCGeneric) (o : Occurrence) : Bool := p.unitMaskOK m.umask o.ev o.unit

/-- `plmOK`: `PMC[i].plm[PSR.cpl]` is one (R81). -/
def plmOK (m : PMCGeneric) (psr : PSR) : Bool := m.plm.getLsbD psr.cpl.toNat

/-- `enableOK`: a user-level monitor is enabled by PSR.up, a system-level monitor by PSR.pp (R82). -/
def enableOK (m : PMCGeneric) (psr : PSR) : Bool := if m.pm then psr.pp else psr.up

/-- `ismOK` (R83). -/
def ismOK (p : Params) (m : PMCGeneric) (psr : PSR) : Bool := p.ismAllows m.ism psr.is

/-- `freezeOK` (R84). -/
def freezeOK (s : State) : Bool := !s.pmc0.fr

/-- `qualified(i, occ)` for a monitor's configuration, `tag` being `tagOK(occ)` (R86). -/
def qualified (p : Params) (s : State) (o : Occurrence) (tag : Bool) (m : PMCGeneric) : Bool :=
  selectOK m o.ev && umaskOK p m o && tag && plmOK m s.psr && enableOK m s.psr && ismOK p m s.psr && freezeOK s

/-! ## Counting -/

/-- `overflow(i)` (R88): it may freeze and never unfreezes; it may set `overflowPending` and never clears it (D14). -/
def markOverflow (s : State) : State :=
  { s with
    pmc0 := { s.pmc0 with fr := s.pmc0.fr || s.drawAt 0 }
    overflowPending := s.overflowPending || s.drawAt 1
    drawCount := s.drawCount + 2 }

/-- `count(i)` (R87): one more, modulo `2^CW`, and an overflow when the sum is `2^CW` (D13, D14). -/
def countMonitor (p : Params) (k : Fin 4) (s : State) : State :=
  let sum := s.pmd.get k + 1
  let s' := s.setCounter k (sum % 2 ^ p.CW)
  if sum = 2 ^ p.CW then markOverflow s' else s'

/-- `if qualified(i, occ) then count(i)`, the qualification already decided. -/
def countIf (p : Params) (q : Four Bool) (k : Fin 4) (s : State) : State :=
  if q.get k then countMonitor p k s else s

/-- The loop of R86 over the four monitors. Which was qualified is decided on the state before the step, so the order of the
four matters only to which free value is which. -/
def countAll (p : Params) (q : Four Bool) (s : State) : State :=
  countIf p q 3 (countIf p q 2 (countIf p q 1 (countIf p q 0 s)))

/-! ## The steps -/

/-- `Event(occ)` on a looked-up occurrence (R86). -/
def occur (p : Params) (o : Occurrence) (s : State) : Result :=
  match tagOK p s o with
  | none => .refused .illFormedOccurrence
  | some tag =>
    .next (countAll p (Four.of fun k => qualified p s o tag (s.pmc.get k))
      (s.addDraws (dbrDraws (p.eventClass o.ev) s)))

/-- The data address of an occurrence, if there is one, has `AW` bits (R40). -/
def daddrFits (p : Params) : Option Addr → Bool
  | none => true
  | some a => decide (a < 2 ^ p.AW)

/-- Step `Event(occ)` (R86): the environment names the instruction by its id, "which must be a key of inflight at the moment of
the step, and the record is looked up then" (R73). -/
def eventStep (p : Params) (e : EventInput) (s : State) : Result :=
  if !daddrFits p e.daddr then .refused .addressTooWide
  else
    match e.instr with
    | none => occur p { ev := e.ev, instr := none, daddr := e.daddr, unit := e.unit } s
    | some id =>
      match findId s.inflight id with
      | none => .refused .idUnknown
      | some r => occur p { ev := e.ev, instr := some r, daddr := e.daddr, unit := e.unit } s

/-- The occurrence of one variant of `IA64_TAGGED_INSTRS_RETIRED` that a retiring instruction causes (R66). -/
def retirementOccurrence (ev : EventId) (r : InFlight) : Occurrence :=
  { ev := ev, instr := some r, daddr := none, unit := none }

/-- Step `Retire(id)` (R66): the instruction leaves the map and its two events follow in order, the second on the state the
first leaves. -/
def retireStep (p : Params) (id : InstrId) (s : State) : Result :=
  match findId s.inflight id with
  | none => .refused .idUnknown
  | some r =>
    if r.tag8.isSome && r.tag9.isSome then
      match occur p (retirementOccurrence p.taggedRetired8 r) (s.setInflight (removeId s.inflight id)) with
      | .next t => occur p (retirementOccurrence p.taggedRetired9 r) t
      | .fault f => .fault f
      | .refused x => .refused x
    else .refused .notIssued

end Sys2Proof.Machine
end

