-- ==== Sys2Proof/Machine/Software.lean ====
section
/-! DEFINITION. The software operations the source describes without naming an instruction (R102 to R109). -/

namespace Sys2Proof.Machine

/-- `SetPSRpp(v)` (R102). -/
def setPSRppStep (v : Bool) (s : State) : Result :=
  privileged s (.next (s.setPSR { s.psr with pp := v }))

/-- `WritePMC(i, value)` (R103): the write replaces the whole register, the freeze bit of PMC[0] included (R104). -/
def writePMCStep (p : Params) (w : PMCWrite) (s : State) : Result :=
  privileged s <|
    match w with
    | .pmc0 v => .next { s with pmc0 := v }
    | .pmc8 v => .next { s with pmc8 := v }
    | .pmc9 v => .next { s with pmc9 := v }
    | .pmc11 v => .next { s with pmc11 := v }
    | .pmc13 v => .next { s with pmc13 := v }
    | .pmc i v =>
      match p.monitorAt i with
      | some k => .next (s.setMonitor k v)
      | none => .refused .noSuchMonitor

/-- `WritePMD(i, value)`, "value has CW bits" (R105). The freeze bit does not stop it (D27). -/
def writePMDStep (p : Params) (i value : Nat) (s : State) : Result :=
  privileged s <|
    match p.monitorAt i with
    | none => .refused .noSuchMonitor
    | some k => if value < 2 ^ p.CW then .next (s.setCounter k value) else .refused .counterTooWide

/-- `WriteIBR(value)` (R106). -/
def writeIBRStep (v : IBRState) (s : State) : Result := privileged s (.next { s with ibr := v })

/-- `WriteDBR(value)` (R106). -/
def writeDBRStep (v : DBRState) (s : State) : Result := privileged s (.next { s with dbr := v })

/-- `WriteDCRpp(v)` (R107). -/
def writeDCRppStep (v : Bool) (s : State) : Result := privileged s (.next { s with dcr := { s.dcr with pp := v } })

/-- `RestorePSR(v)` (R108, R125). -/
def restorePSRStep (v : PSR) (s : State) : Result := privileged s (.next (installPSR v s))

/-- `SetCpl(v)`, a step of the environment under no law (R109, D18). -/
def setCplStep (v : BitVec 2) (s : State) : Result := .next (s.setPSR { s.psr with cpl := v })

/-- `SetIs(v)`, a step of the environment under no law (R109, D18). -/
def setIsStep (v : Bool) (s : State) : Result := .next (s.setPSR { s.psr with is := v })

/-- `Interruption` (R120): it may occur between any two steps. -/
def interruptionStep (p : Params) (s : State) : Result := .next (takeInterruption p s)

end Sys2Proof.Machine
end

