-- ==== Sys2Proof/Machine/Inputs.lean ====
section
/-! DEFINITION. Performing one input of the environment (R110), and a step with given parameters. -/

namespace Sys2Proof.Machine

/-- Running what a decoder answered. -/
def runDecoded (d : Except DecodeReject Instr) (s : State) : Result :=
  match d with
  | .ok i => exec i s
  | .error r => .refused (.notDecoded r)

/-- `PSR.is` selects the instruction set by which bytes are decoded (R52); no IA-32 instruction is described (log 19). -/
def underIA64 (s : State) (act : Result) : Result := if s.psr.is then .refused .ia32Code else act

/-- One step of R110. -/
def applyInput (p : Params) (x : Input) (s : State) : Result :=
  match x with
  | .slot unit bits => underIA64 s (runDecoded (decodeSlot unit bits) s)
  | .bundle bytes n => underIA64 s (runDecoded (decodeInBundle p bytes n) s)
  | .instr i => exec i s
  | .fetch id ip => fetchStep p id ip s
  | .issue id enc => issueStep p id enc s
  | .retire id => retireStep p id s
  | .flush id => flushStep id s
  | .event e => eventStep p e s
  | .setPSRpp v => setPSRppStep v s
  | .writePMC w => writePMCStep p w s
  | .writePMD i v => writePMDStep p i v s
  | .writeIBR v => writeIBRStep v s
  | .writeDBR v => writeDBRStep v s
  | .writeDCRpp v => writeDCRppStep v s
  | .restorePSR v => restorePSRStep v s
  | .setCpl v => setCplStep v s
  | .setIs v => setIsStep v s
  | .interruption => interruptionStep p s

/-- A step of the machine with parameters p: it performs the oldest input, or stops where the given sequence has ended (R147,
log 1, log 2). -/
def stepWith (p : Params) (s : State) : Result :=
  match s.inputs with
  | [] => .fault .endOfRun
  | x :: rest => applyInput p x { s with inputs := rest }

/-- The input that presents a table word of the host: an M-type slot. -/
def tableWordInput (nbits w : Nat) : Input := .slot .M (BitVec.ofNat 41 (w % 2 ^ nbits))

/-- Placing a slot where the next step finds it: at the head of the inputs, with IA-64 code executing, since under IA-32 code
the bits would be no IA-64 slot (R52, log 29). -/
def placeTableWord (s : State) (nbits w : Nat) : State :=
  { s with psr := { s.psr with is := false }, inputs := tableWordInput nbits w :: s.inputs }

end Sys2Proof.Machine
end

