-- ==== Sys2Proof/Machine/Step.lean ====
section
/-! DEFINITION. The step of the machine, and placing an instruction where it finds its next one. -/

namespace Sys2Proof.Machine

/-- One step: the oldest input, with the machine's own parameters. -/
def step (s : State) : Host.Outcome State Fault Refusal := stepWith Config.params s

/-- s with the table word w at the head of the inputs, IA-64 code executing. -/
def State.withFetchWord (s : State) (nbits w : Nat) : State := placeTableWord s nbits w

end Sys2Proof.Machine
end

