-- ==== Sys2Proof/Machine/Observe.lean ====
section
/-! DEFINITION. What software and a claim can see: `ReadPMD` (R105) and the observation (R147). -/

namespace Sys2Proof.Machine

/-- `ReadPMD(i)`, with no privilege rule (R105); none where i is no generic monitor. -/
def readPMD (p : Params) (i : Nat) (s : State) : Option Nat := (p.monitorAt i).map s.pmd.get

/-- "the tuple of values PMD[i], i in GenericMonitors, together with PMC[0].fr" (R147). -/
def State.observe (s : State) : Four Nat × Bool := (s.pmd, s.pmc0.fr)

end Sys2Proof.Machine
end

