-- ==== Sys2Proof/Safety.lean ====
section
/-! DEFINITION. The terms claims use: runs over a sequence of inputs, the invariant of the state, what it means that an
occurrence is admitted by a monitor and that exactly certain monitors counted, kinds of inputs, and the relation of two states
that differ only in what PMC[9] tagged. -/

namespace Sys2Proof.Machine

/-- A finite sequence of steps chosen by the environment (R110, R147): it stops at the first step that stops. -/
def runInputs (p : Params) : List Input → State → Result
  | [], s => .next s
  | x :: xs, s =>
    match applyInput p x s with
    | .next t => runInputs p xs t
    | .fault f => .fault f
    | .refused r => .refused r

/-! ## The invariant -/

/-- A record in flight: its address has `AW` bits, and its encoding and two tags are there together or not at all (R29). -/
def RecordOK (p : Params) (r : InFlight) : Prop :=
  r.ip < 2 ^ p.AW ∧ r.tag8.isSome = r.enc.isSome ∧ r.tag9.isSome = r.enc.isSome

/-- Every counter has `CW` bits (R26), the in-flight map is in canonical form and its records are as R29 says. -/
structure Inv (p : Params) (s : State) : Prop where
  counters_fit : ∀ k, s.pmd.get k < 2 ^ p.CW
  ids_rising : s.inflight.wf = true
  records_ok : ∀ id r, findId s.inflight id = some r → RecordOK p r

/-! ## What counting means -/

/-- Every check of Figure 6-4, 6-5 and §6.1.3.2 but the tags, in the source's own terms: monitor k selects the event, its unit
mask passes it, its privilege level mask has the current level, its enable is on, its instruction set mask allows the current
instruction set and monitoring is not frozen (R80 to R86). -/
structure MonitorAdmits (p : Params) (s : State) (ev : EventId) (unit : Option UnitInfo) (k : Fin 4) : Prop where
  selected : (s.pmc.get k).es = ev
  unit_mask : p.unitMaskOK (s.pmc.get k).umask ev unit = true
  level : (s.pmc.get k).plm.getLsbD s.psr.cpl.toNat = true
  user_enable : (s.pmc.get k).pm = false → s.psr.up = true
  system_enable : (s.pmc.get k).pm = true → s.psr.pp = true
  instruction_set : p.ismAllows (s.pmc.get k).ism s.psr.is = true
  not_frozen : s.pmc0.fr = false

/-- Counting writes counters, and may set `PMC[0].fr` and `overflowPending` and use free values; nothing else changes (R86 to
R88). -/
structure CountingOnly (s t : State) : Prop where
  frame : t = { s with
    pmd := t.pmd
    pmc0 := { s.pmc0 with fr := t.pmc0.fr }
    overflowPending := t.overflowPending
    drawCount := t.drawCount }
  freeze_kept : s.pmc0.fr = true → t.pmc0.fr = true
  pending_kept : s.overflowPending = true → t.overflowPending = true

/-- From s to t exactly the monitors in `counted` counted one occurrence (R86, R87, D13, D14), nothing else changed but what
an overflow may set (R88), and without an overflow that did not change either. -/
structure CountedExactly (p : Params) (counted : Fin 4 → Prop) (s t : State) : Prop where
  counts : ∀ k, counted k → t.pmd.get k = (s.pmd.get k + 1) % 2 ^ p.CW
  keeps : ∀ k, ¬ counted k → t.pmd.get k = s.pmd.get k
  only : CountingOnly s t
  no_overflow : (∀ k, counted k → s.pmd.get k + 1 ≠ 2 ^ p.CW) →
    t.pmc0 = s.pmc0 ∧ t.overflowPending = s.overflowPending

/-! ## Kinds of inputs -/

/-- The steps of the pipeline itself: no software operation and no interruption. -/
def Input.isPipeline : Input → Bool
  | .fetch .. | .issue .. | .retire .. | .flush .. | .event .. => true
  | .slot .. | .bundle .. | .instr .. | .setPSRpp .. | .writePMC .. | .writePMD .. | .writeIBR .. | .writeDBR ..
  | .writeDCRpp .. | .restorePSR .. | .setCpl .. | .setIs .. | .interruption => false

/-- The two steps that present event occurrences to the monitors (R66, R86). -/
def Input.presentsEvents : Input → Bool
  | .retire .. | .event .. => true
  | _ => false

/-- Software writes PMC[0] (R104). -/
def Input.writesFreeze : Input → Bool
  | .writePMC (.pmc0 _) => true
  | _ => false

/-- Software writes a counter (R105). -/
def Input.writesCounter : Input → Bool
  | .writePMD .. => true
  | _ => false

/-- The steps that may change or remove what the instruction id carries: its issue, its retirement, its flush. -/
def Input.actsOn (id : InstrId) : Input → Bool
  | .issue j _ => j == id
  | .retire j => j == id
  | .flush j => j == id
  | _ => false

/-- Software makes a monitor select an event of class `tagged9`. -/
def Input.selectsTagged9 (p : Params) : Input → Bool
  | .writePMC (.pmc _ v) => decide (p.eventClass v.es = .tagged9)
  | _ => false

/-! ## Two states that differ only in what PMC[9] tagged -/

/-- The same record but for the value of `tag9`. -/
def SameRecordButTag9 (a b : InstrId × InFlight) : Prop :=
  b.1 = a.1 ∧ b.2 = { a.2 with tag9 := b.2.tag9 } ∧ b.2.tag9.isSome = a.2.tag9.isSome

/-- Equal but for PMC[9] and for the values of the tags it gave (R65, R67). -/
structure SameButMatcher9 (s t : State) : Prop where
  rest_equal : t = { s with pmc9 := t.pmc9, inflight := t.inflight }
  records : List.Forall₂ SameRecordButTag9 s.inflight t.inflight

/-- Two runs answer alike: two next states that are related, or the same stop. -/
def SameAnswer (rel : State → State → Prop) : Result → Result → Prop
  | .next s, .next t => rel s t
  | .fault f, .fault g => f = g
  | .refused r, .refused q => r = q
  | _, _ => False

/-- No monitor selects an event that `Tag(PMC[9])` qualifies. -/
def NoMonitorSelectsTagged9 (p : Params) (s : State) : Prop :=
  ∀ k, p.eventClass (s.pmc.get k).es ≠ .tagged9

end Sys2Proof.Machine
end

