-- ==== Sys2Proof/Certificates/Slice0/Obligations.lean ====
section
/-! DEFINITION. The statements for the provers. A statement about a step other than the instructions is made for every value p
of the parameters of R5; the machine's own `step` takes p to be `Config.params`. -/

open Sys2Proof Sys2Proof.Machine

/-! ## Encoding -/

/-- Every instruction, with every value of its operands, decodes from its own encoding in an M-type slot (R57's format, log 18). -/
def Obligations.DecodeOfEncodeIsIdentity : Prop :=
  ∀ i : Instr, decodeSlot .M (encode i) = .ok i

/-- Whatever a slot of any unit type decodes to encodes back to the very same 41 bits, and the slot was M-type (R57, log 18). -/
def Obligations.EncodeOfDecodeIsIdentity : Prop :=
  ∀ (u : SlotUnit) (w : Slot) (i : Instr), decodeSlot u w = .ok i → u = .M ∧ encode i = w

/-- The decoder accepts exactly the words the opcode table's mask and match columns accept, and gives each row its own
instruction (R57's mask and match, log 18). -/
def Obligations.DecoderAgreesWithMaskAndMatch : Prop :=
  ∀ (u : SlotUnit) (w : Slot),
    ((∃ imm24 qp, decodeSlot u w = .ok (.sum imm24 qp)) ↔ u = .M ∧ w &&& 0x1EE78000000#41 = 0x00020000000#41) ∧
    ((∃ imm24 qp, decodeSlot u w = .ok (.rum imm24 qp)) ↔ u = .M ∧ w &&& 0x1EE78000000#41 = 0x00028000000#41)

/-- The operands a slot decodes to, as R57's arithmetic gives them:
`imm24 = zext_24(i) * 2^23 + zext_24(i2d) * 2^21 + zext_24(imm21a)`, and `qp` is bits 5:0 (log 18). -/
def Obligations.OperandsAreTheSlotsFields : Prop :=
  ∀ (w : Slot) (imm24 : Imm24) (qp : PredReg),
    decodeSlot .M w = .ok (.sum imm24 qp) ∨ decodeSlot .M w = .ok (.rum imm24 qp) →
      imm24.toNat = w.toNat / 2 ^ 36 % 2 * 2 ^ 23 + w.toNat / 2 ^ 31 % 4 * 2 ^ 21 + w.toNat / 2 ^ 6 % 2 ^ 21 ∧
      qp.toNat = w.toNat % 64

/-- A bundle comes back from the 16 bytes that encode it, with its template and its three slots (log 18). That the layout is
R57's is the next statement's. -/
def Obligations.BundleDecodeOfEncodeIsIdentity : Prop :=
  ∀ b : Bundle, decodeBundle (encodeBundle b) = .ok b

/-- Where the parts of a stored bundle lie: of the number N that its 16 bytes are little-endian, the template is bits 4:0, slot 0
bits 45:5, slot 1 bits 86:46 and slot 2 bits 127:87; any other number of bytes is no bundle (R57, log 18). -/
def Obligations.BundleFieldsAreTheStoredBits : Prop :=
  ∀ (bytes : List Byte) (N : Nat), N = ∑ i ∈ Finset.range 16, (bytes.getD i 0).toNat * 256 ^ i →
    (bytes.length = 16 → ∃ b, decodeBundle bytes = .ok b ∧ b.template.toNat = N % 2 ^ 5 ∧
      b.slot0.toNat = N / 2 ^ 5 % 2 ^ 41 ∧ b.slot1.toNat = N / 2 ^ 46 % 2 ^ 41 ∧ b.slot2.toNat = N / 2 ^ 87 % 2 ^ 41) ∧
    (bytes.length ≠ 16 → decodeBundle bytes = .error .bundleLength)

/-- The two words R57 writes out, a `rum` with every operand field in use, and one word of no row (log 18). -/
def Obligations.WrittenOutWordsDecode : Prop :=
  decodeTableWord 48 0x00020000100 = some (.sum 4#24 0#6) ∧
  decodeTableWord 48 0x00028000100 = some (.rum 4#24 0#6) ∧
  decodeTableWord 48 0x011a8000f85 = some (.rum 0xe0003e#24 5#6) ∧
  decodeTableWord 48 0x00030000100 = none

/-! ## The step -/

/-- A step performs the oldest input on the state without it; with no input left the run has ended (R110, R147; log 1, 2). -/
def Obligations.StepPerformsOldestInput : Prop :=
  ∀ s : State,
    (∀ x rest, s.inputs = x :: rest → step s = applyInput Config.params x { s with inputs := rest }) ∧
    (s.inputs = [] → step s = .fault .endOfRun)

/-- A step runs the decoded instruction: a slot, a slot of a stored bundle, an instruction presented decoded, and a table word
placed by the host (R52, R57, R110; log 1, 18, 19, 29). -/
def Obligations.StepRunsDecodedInstruction : Prop :=
  ∀ (s : State) (rest : List Input) (i : Instr),
    (∀ w, s.psr.is = false → s.inputs = .slot .M w :: rest → decodeSlot .M w = .ok i →
      step s = exec i { s with inputs := rest }) ∧
    (∀ p bytes n b, s.psr.is = false → s.inputs = .bundle bytes n :: rest → decodeBundle bytes = .ok b →
      p.slotUnit b.template n = .M → decodeSlot .M (b.slot n) = .ok i →
      stepWith p s = exec i { s with inputs := rest }) ∧
    (s.inputs = .instr i :: rest → step s = exec i { s with inputs := rest }) ∧
    (∀ nbits w, decodeTableWord nbits w = some i →
      step (s.withFetchWord nbits w) = exec i { s with psr := { s.psr with is := false } })

/-- Bits that are no instruction of the spec, presented as a slot or as one slot of a stored bundle, and any bits under IA-32
code, are refused by name; a bundle's slot is so refused when its template does not give it type M, or when it matches no row
(R52, R57, R59; log 19). -/
def Obligations.OtherSlotsAreRefused : Prop :=
  ∀ (p : Params) (s : State),
    (∀ u w r, s.psr.is = false → decodeSlot u w = .error r → applyInput p (.slot u w) s = .refused (.notDecoded r)) ∧
    (∀ u w, s.psr.is = true → applyInput p (.slot u w) s = .refused .ia32Code) ∧
    (∀ bytes n, s.psr.is = true → applyInput p (.bundle bytes n) s = .refused .ia32Code) ∧
    (∀ bytes n, s.psr.is = false → bytes.length ≠ 16 →
      applyInput p (.bundle bytes n) s = .refused (.notDecoded .bundleLength)) ∧
    (∀ bytes n r, s.psr.is = false → decodeInBundle p bytes n = .error r →
      applyInput p (.bundle bytes n) s = .refused (.notDecoded r)) ∧
    (∀ bytes n b, s.psr.is = false → decodeBundle bytes = .ok b → p.slotUnit b.template n ≠ .M →
      applyInput p (.bundle bytes n) s = .refused (.notDecoded .notMUnit)) ∧
    (∀ bytes n b, s.psr.is = false → decodeBundle bytes = .ok b → p.slotUnit b.template n = .M →
      decodeSlot .M (b.slot n) = .error .notInTable →
      applyInput p (.bundle bytes n) s = .refused (.notDecoded .notInTable))

/-- The machine the host runs performs a finite sequence of inputs exactly as `runInputs` does: as many steps as there are
inputs, in their order (R110, R147; log 1). -/
def Obligations.MachineRunPerformsTheInputs : Prop :=
  ∀ (xs : List Input) (s : State), s.inputs = [] →
    Host.Core.run Sys2Proof.core xs.length { s with inputs := xs } = runInputs Config.params xs s

/-! ## The instructions -/

/-- `sum` with a mask inside the user mask completes at every level: under a predicate that holds it sets `PSR.up` when mask bit
2 is one; it changes nothing else (R100: general knowledge, log 15; the predicate, log 17). -/
def Obligations.SumSetsUserMonitorEnable : Prop :=
  ∀ (imm24 : Imm24) (qp : PredReg) (s : State), imm24.getLsbD 0 = false → imm24.extractLsb' 6 18 = 0#18 →
    ∃ b : Bool, (qp = 0#6 → b = true) ∧
      exec (.sum imm24 qp) s = .next { s with
        psr := { s.psr with up := s.psr.up || (b && imm24.getLsbD 2) }
        drawCount := s.drawCount + (if qp = 0#6 then 0 else 1) }

/-- `rum`, likewise, clears `PSR.up` (R101: general knowledge, log 15; the predicate, log 17). -/
def Obligations.RumClearsUserMonitorEnable : Prop :=
  ∀ (imm24 : Imm24) (qp : PredReg) (s : State), imm24.getLsbD 0 = false → imm24.extractLsb' 6 18 = 0#18 →
    ∃ b : Bool, (qp = 0#6 → b = true) ∧
      exec (.rum imm24 qp) s = .next { s with
        psr := { s.psr with up := s.psr.up && !(b && imm24.getLsbD 2) }
        drawCount := s.drawCount + (if qp = 0#6 then 0 else 1) }

/-- A mask with a bit outside the user mask is refused when the predicate holds; under a predicate register other than 0 it is
refused or has no effect (R100, R101; log 16, 17). -/
def Obligations.ReservedMaskIsRefused : Prop :=
  ∀ (imm24 : Imm24) (qp : PredReg) (s : State), imm24.getLsbD 0 = true ∨ imm24.extractLsb' 6 18 ≠ 0#18 →
    (qp = 0#6 → exec (.sum imm24 qp) s = .refused .reservedField ∧ exec (.rum imm24 qp) s = .refused .reservedField) ∧
    (qp ≠ 0#6 →
      (exec (.sum imm24 qp) s = .refused .reservedField ∨
        exec (.sum imm24 qp) s = .next { s with drawCount := s.drawCount + 1 }) ∧
      (exec (.rum imm24 qp) s = .refused .reservedField ∨
        exec (.rum imm24 qp) s = .next { s with drawCount := s.drawCount + 1 }))

/-- What any instruction may change, in any state: `PSR.up` and the count of free values. Privilege, instruction set, `PSR.pp`,
`DCR.pp`, every PMC and PMD, the range registers and the instructions in flight stay; `sum` never clears and `rum` never sets
(R100, R101; log 15). -/
def Obligations.InstructionsChangeOnlyUserEnable : Prop :=
  ∀ (i : Instr) (s t : State), exec i s = .next t →
    t = { s with psr := { s.psr with up := t.psr.up }, drawCount := t.drawCount } ∧
    (∀ imm24 qp, i = .sum imm24 qp → s.psr.up = true → t.psr.up = true) ∧
    (∀ imm24 qp, i = .rum imm24 qp → s.psr.up = false → t.psr.up = false)

/-! ## Tagging -/

/-- `Fetch` of a fresh instruction completes and stores its range tag: under IA-64 code the address range check of that moment,
under IA-32 code either value; nothing else changes (R60, R61, R71; log 9, 10). -/
def Obligations.FetchStoresTheRangeTag : Prop :=
  ∀ (p : Params) (s : State) (id : InstrId) (ip : Addr), findId s.inflight id = none → ip < 2 ^ p.AW →
    ∃ (t : State) (b : Bool), applyInput p (.fetch id ip) s = .next t ∧
      findId t.inflight id = some { ip := ip, enc := none, ibrTag := b, tag8 := none, tag9 := none } ∧
      (s.psr.is = false → b = (s.pmc13.ta || p.inIBRRange s.ibr s.pmc13.rest ip)) ∧
      (∀ j, j ≠ id → findId t.inflight j = findId s.inflight j) ∧
      t = { s with inflight := t.inflight, drawCount := t.drawCount } ∧
      (s.psr.is = false → t.drawCount = s.drawCount)

/-- `Issue` completes and stores both combined tags: under IA-64 code the range tag and each matcher's own match, under IA-32
code any values; nothing else changes (R64, R65, R71; log 9, 10, 24, 25). -/
def Obligations.IssueStoresBothOpcodeTags : Prop :=
  ∀ (p : Params) (s : State) (id : InstrId) (enc : Enc) (r : InFlight),
    findId s.inflight id = some r → r.tag8 = none →
    ∃ (t : State) (b8 b9 : Bool), applyInput p (.issue id enc) s = .next t ∧
      findId t.inflight id = some { r with enc := some enc, tag8 := some b8, tag9 := some b9 } ∧
      (s.psr.is = false → b8 = (r.ibrTag && p.opmatch s.pmc8 enc) ∧ b9 = (r.ibrTag && p.opmatch s.pmc9 enc)) ∧
      (∀ j, j ≠ id → findId t.inflight j = findId s.inflight j) ∧
      t = { s with inflight := t.inflight, drawCount := t.drawCount } ∧
      (s.psr.is = false → t.drawCount = s.drawCount)

/-- `Flush` of an instruction in flight removes it and changes nothing else (R110). -/
def Obligations.FlushRemovesOnlyItsInstruction : Prop :=
  ∀ (p : Params) (s : State) (id : InstrId), (findId s.inflight id).isSome = true →
    ∃ t : State, applyInput p (.flush id) s = .next t ∧ findId t.inflight id = none ∧
      (∀ j, j ≠ id → findId t.inflight j = findId s.inflight j) ∧ t = { s with inflight := t.inflight }

/-- Table 6-3, all eight combinations: what an instruction fetched and issued in each mode carries as `Tag(PMC[8])`, and what
the tag check of a down-stream and of a memory event it causes then is (R60, R64, R68, R70, R73; the AND is D6's, log 25). -/
def Obligations.QualificationModesOfTheTable : Prop :=
  ∀ (p : Params) (s : State) (id : InstrId) (ip : Addr) (enc : Enc),
    s.psr.is = false → findId s.inflight id = none → ip < 2 ^ p.AW →
    ∃ (t : State) (r : InFlight) (b : Bool),
      runInputs p [.fetch id ip, .issue id enc] s = .next t ∧ findId t.inflight id = some r ∧ r.tag8 = some b ∧
      (s.pmc13.ta = true → s.pmc8 = allOnes → b = true) ∧
      (s.pmc13.ta = false → s.pmc8 = allOnes → b = p.inIBRRange s.ibr s.pmc13.rest ip) ∧
      (s.pmc13.ta = true → b = p.opmatch s.pmc8 enc) ∧
      (s.pmc13.ta = false → b = (p.inIBRRange s.ibr s.pmc13.rest ip && p.opmatch s.pmc8 enc)) ∧
      (∀ ev d u, p.eventClass ev = .downstream →
        tagOK p t { ev := ev, instr := some r, daddr := d, unit := u } = some b) ∧
      (∀ ev d u, p.eventClass ev = .memory → s.pmc11.pt = true →
        tagOK p t { ev := ev, instr := some r, daddr := some d, unit := u } = some b) ∧
      (∀ ev d u, p.eventClass ev = .memory → s.pmc11.pt = false →
        tagOK p t { ev := ev, instr := some r, daddr := some d, unit := u } =
          some (b && p.inDBRRange s.dbr s.pmc11.rest d))

/-- Tags are carried through any run: whatever is reprogrammed, restored, fetched or delivered, an instruction in flight keeps
its record until it is issued, retired or flushed (R61, R142). -/
def Obligations.TagsAreCarriedThroughRuns : Prop :=
  ∀ (p : Params) (xs : List Input) (s t : State) (id : InstrId) (r : InFlight),
    findId s.inflight id = some r → (∀ x ∈ xs, x.actsOn id = false) → runInputs p xs s = .next t →
    findId t.inflight id = some r

/-! ## Events and counting -/

/-- An event of a class that an instruction's tag qualifies: it completes, and exactly the monitors that admit it count when the
tag is true (R67, R72, R73, R86; one per occurrence and the wrap are D13 and D14's, log 7; PMC[9]'s variant, log 11). -/
def Obligations.InstructionEventsCountExactly : Prop :=
  ∀ (p : Params) (s : State) (e : EventInput) (id : InstrId) (r : InFlight) (b8 : Bool),
    e.instr = some id → findId s.inflight id = some r → r.tag8 = some b8 → (∀ a, e.daddr = some a → a < 2 ^ p.AW) →
    (p.eventClass e.ev = .downstream ∨ p.eventClass e.ev = .tagged8 →
      ∃ t, applyInput p (.event e) s = .next t ∧
        CountedExactly p (fun k => b8 = true ∧ MonitorAdmits p s e.ev e.unit k) s t) ∧
    (∀ b9, r.tag9 = some b9 → p.eventClass e.ev = .tagged9 →
      ∃ t, applyInput p (.event e) s = .next t ∧
        CountedExactly p (fun k => (b9 = true ∧ (p.tag9AlsoNeedsTag8 = true → b8 = true)) ∧
          MonitorAdmits p s e.ev e.unit k) s t)

/-- A memory event counts when `Tag(PMC[8])` holds and its data address passes the data address range check: `PMC[11].pt` one,
or under IA-64 code an address in the DBR range; under IA-32 code with `pt` zero either (R68, R69, R71, R73; log 7, 9). -/
def Obligations.MemoryEventsNeedTheDataRange : Prop :=
  ∀ (p : Params) (s : State) (e : EventInput) (id : InstrId) (r : InFlight) (b8 : Bool) (a : Addr),
    p.eventClass e.ev = .memory → e.instr = some id → findId s.inflight id = some r → r.tag8 = some b8 →
    e.daddr = some a → a < 2 ^ p.AW →
    ∃ (t : State) (b : Bool), applyInput p (.event e) s = .next t ∧
      (s.pmc11.pt = true → b = true) ∧
      (s.pmc11.pt = false → s.psr.is = false → b = p.inDBRRange s.dbr s.pmc11.rest a) ∧
      CountedExactly p (fun k => (b8 = true ∧ b = true) ∧ MonitorAdmits p s e.ev e.unit k) s t

/-- An event that no tag qualifies counts at exactly the monitors that admit it, whether or not an instruction in flight caused
it (R72, R73, R86; log 7). -/
def Obligations.UntaggedEventsCountExactly : Prop :=
  ∀ (p : Params) (s : State) (e : EventInput),
    p.eventClass e.ev = .untagged → (∀ id, e.instr = some id → (findId s.inflight id).isSome = true) →
    (∀ a, e.daddr = some a → a < 2 ^ p.AW) →
    ∃ t, applyInput p (.event e) s = .next t ∧ CountedExactly p (MonitorAdmits p s e.ev e.unit) s t

/-- Retirement completes, removes exactly its instruction, and then presents the two variants of the retirement event in order,
the second on the state the first leaves (R66; log 7, 11). -/
def Obligations.RetirementPresentsBothVariants : Prop :=
  ∀ (p : Params) (s : State) (id : InstrId) (r : InFlight) (b8 b9 : Bool),
    findId s.inflight id = some r → r.tag8 = some b8 → r.tag9 = some b9 →
    ∃ u t : State, applyInput p (.retire id) s = .next t ∧ findId t.inflight id = none ∧
      (∀ j, j ≠ id → findId t.inflight j = findId s.inflight j) ∧
      CountedExactly p (fun k => b8 = true ∧ MonitorAdmits p s p.taggedRetired8 none k)
        { s with inflight := t.inflight } u ∧
      CountedExactly p (fun k => (b9 = true ∧ (p.tag9AlsoNeedsTag8 = true → b8 = true)) ∧
        MonitorAdmits p u p.taggedRetired9 none k) u t

/-- The privilege level mask: the check is the bit of the mask for the current level, no mask bit never passes and all four
always do; and no step that presents events advances a monitor whose mask lacks the current level (R81). -/
def Obligations.LevelMaskGatesCounting : Prop :=
  (∀ (m : PMCGeneric) (psr : PSR), plmOK m psr = true ↔ m.plm.getLsbD psr.cpl.toNat = true) ∧
  (∀ (m : PMCGeneric) (psr : PSR), (m.plm = 0#4 → plmOK m psr = false) ∧ (m.plm = 15#4 → plmOK m psr = true)) ∧
  (∀ (p : Params) (x : Input) (s t : State) (k : Fin 4), x.presentsEvents = true → applyInput p x s = .next t →
    (s.pmc.get k).plm.getLsbD s.psr.cpl.toNat = false → t.pmd.get k = s.pmd.get k)

/-- A user-level monitor counts nothing while `PSR.up` is zero, whatever `PSR.pp` is, and a system-level monitor nothing while
`PSR.pp` is zero, whatever `PSR.up` is (R82; that both this check and the level mask must hold is the spec's inference). -/
def Obligations.EnableBitGatesCounting : Prop :=
  ∀ (p : Params) (x : Input) (s t : State) (k : Fin 4), x.presentsEvents = true → applyInput p x s = .next t →
    ((s.pmc.get k).pm = false → s.psr.up = false → t.pmd.get k = s.pmd.get k) ∧
    ((s.pmc.get k).pm = true → s.psr.pp = false → t.pmd.get k = s.pmd.get k)

/-- The three scopes of Figures 6-6 to 6-8: a user-level monitor with mask 1000 counts at level 3 under `PSR.up` only, one with
mask 1001 at levels 3 and 0 under `PSR.up`, a system-level monitor with mask 1001 at levels 3 and 0 under `PSR.pp`; the masks
are written bit 3 first (R6, R54, R90: the spec's inference). -/
def Obligations.MonitoringScopesOfTheFigures : Prop :=
  ∀ (p : Params) (x : Input) (s t : State) (k : Fin 4), x.presentsEvents = true → applyInput p x s = .next t →
    t.pmd.get k ≠ s.pmd.get k →
    ((s.pmc.get k).pm = false → (s.pmc.get k).plm = 0b1000#4 → s.psr.cpl = 3#2 ∧ s.psr.up = true) ∧
    ((s.pmc.get k).pm = false → (s.pmc.get k).plm = 0b1001#4 →
      (s.psr.cpl = 3#2 ∨ s.psr.cpl = 0#2) ∧ s.psr.up = true) ∧
    ((s.pmc.get k).pm = true → (s.pmc.get k).plm = 0b1001#4 →
      (s.psr.cpl = 3#2 ∨ s.psr.cpl = 0#2) ∧ s.psr.pp = true)

/-- A monitor set to IA-64 only passes the instruction set check under IA-64 code, fails it under IA-32 code, and counts nothing
while IA-32 code executes (R83). -/
def Obligations.IA64OnlyMonitorsIgnoreIA32Code : Prop :=
  (∀ (p : Params) (m : PMCGeneric) (psr : PSR), m.ism = p.ismIA64Only →
    (psr.is = false → ismOK p m psr = true) ∧ (psr.is = true → ismOK p m psr = false)) ∧
  (∀ (p : Params) (x : Input) (s t : State) (k : Fin 4), x.presentsEvents = true → applyInput p x s = .next t →
    (s.pmc.get k).ism = p.ismIA64Only → s.psr.is = true → t.pmd.get k = s.pmd.get k)

/-- While `PMC[0].fr` is one nothing is counted: through any run without a software write of PMC[0] or of a counter, whatever
else happens, all four counters and `overflowPending` stay and the monitor stays frozen; and the freeze check passes exactly
when `fr` is zero (R84). -/
def Obligations.FrozenRunsCountNothing : Prop :=
  (∀ s : State, freezeOK s = true ↔ s.pmc0.fr = false) ∧
  (∀ (p : Params) (xs : List Input) (s t : State), s.pmc0.fr = true →
    (∀ x ∈ xs, x.writesFreeze = false ∧ x.writesCounter = false) → runInputs p xs s = .next t →
    t.pmd = s.pmd ∧ t.pmc0.fr = true ∧ t.overflowPending = s.overflowPending)

/-- A monitor counts only the event it selects; two monitors that select the same event each count it under their own masks (R85;
the second half is the spec's inference). -/
def Obligations.MonitorsCountTheirSelectedEvent : Prop :=
  (∀ (p : Params) (e : EventInput) (s t : State) (k : Fin 4), applyInput p (.event e) s = .next t →
    (s.pmc.get k).es ≠ e.ev → t.pmd.get k = s.pmd.get k) ∧
  (∀ (p : Params) (id : InstrId) (s t : State) (k : Fin 4), applyInput p (.retire id) s = .next t →
    (s.pmc.get k).es ≠ p.taggedRetired8 → (s.pmc.get k).es ≠ p.taggedRetired9 → t.pmd.get k = s.pmd.get k) ∧
  (∀ (p : Params) (e : EventInput) (s t : State) (j k : Fin 4), p.eventClass e.ev = .untagged →
    applyInput p (.event e) s = .next t → MonitorAdmits p s e.ev e.unit j →
    (s.pmc.get k).es = e.ev → ¬ MonitorAdmits p s e.ev e.unit k →
    t.pmd.get j = (s.pmd.get j + 1) % 2 ^ p.CW ∧ t.pmd.get k = s.pmd.get k)

/-- `Tag(PMC[8])` qualifies every down-stream event: an occurrence of class `downstream` or `memory` whose instruction has it
false advances no counter; and `Tag(PMC[9])` takes no part in the tag check of any class but its own (R67). -/
def Obligations.Tag8QualifiesDownstreamEvents : Prop :=
  (∀ (p : Params) (s t : State) (e : EventInput) (id : InstrId) (r : InFlight),
    p.eventClass e.ev = .downstream ∨ p.eventClass e.ev = .memory → e.instr = some id →
    findId s.inflight id = some r → r.tag8 = some false → applyInput p (.event e) s = .next t → t.pmd = s.pmd) ∧
  (∀ (p : Params) (s : State) (o : Occurrence) (r : InFlight) (x : Option Bool), p.eventClass o.ev ≠ .tagged9 →
    tagOK p s { o with instr := some { r with tag9 := x } } = tagOK p s { o with instr := some r })

/-- What an overflow can do, in all its admitted outcomes: no step but a software write of PMC[0] unfreezes, none clears
`overflowPending`, and both stay as they are in a step that presents no event or in which no counter wraps from its last value
to zero (R88, R33; D14, log 7, 8). -/
def Obligations.OnlyAnOverflowFreezesOrSignals : Prop :=
  ∀ (p : Params) (x : Input) (s t : State), applyInput p x s = .next t → x.writesFreeze = false →
    (s.pmc0.fr = true → t.pmc0.fr = true) ∧ (s.overflowPending = true → t.overflowPending = true) ∧
    (x.presentsEvents = false ∨ (∀ k, s.pmd.get k + 1 = 2 ^ p.CW → t.pmd.get k ≠ 0) →
      t.pmc0.fr = s.pmc0.fr ∧ t.overflowPending = s.overflowPending)

/-- Nothing reads `overflowPending`: from two states that differ only in it, every step answers alike (R33, R121; log 8). -/
def Obligations.OverflowPendingIsNeverRead : Prop :=
  ∀ (p : Params) (x : Input) (s : State) (b : Bool),
    SameAnswer (fun t u => u = { t with overflowPending := u.overflowPending })
      (applyInput p x s) (applyInput p x { s with overflowPending := b })

/-- Counters, `PMC[0]` and `overflowPending` change only when events are presented, or by software's own writes of them (R26,
R104, R105, R110). -/
def Obligations.CountersChangeOnlyByCountingOrSoftware : Prop :=
  ∀ (p : Params) (x : Input) (s t : State), applyInput p x s = .next t → x.presentsEvents = false →
    (x.writesCounter = false → t.pmd = s.pmd) ∧ (x.writesFreeze = false → t.pmc0 = s.pmc0) ∧
    t.overflowPending = s.overflowPending

/-! ## Software operations -/

/-- `SetPSRpp` at level 0 writes `PSR.pp` and nothing else, at any other level it is refused, and no instruction can stand in for
it (R102). -/
def Obligations.SystemEnableIsSetAtLevelZeroOnly : Prop :=
  (∀ (p : Params) (s : State) (v : Bool),
    (s.psr.cpl = 0#2 → applyInput p (.setPSRpp v) s = .next { s with psr := { s.psr with pp := v } }) ∧
    (s.psr.cpl ≠ 0#2 → applyInput p (.setPSRpp v) s = .refused .privileged)) ∧
  (∀ (i : Instr) (s t : State), exec i s = .next t → t.psr.pp = s.psr.pp)

/-- `PSR.pp` enables exactly the system-level monitors, and has three writers: `SetPSRpp` and `RestorePSR`, both at level 0 only,
and the delivery of an interruption, which copies `DCR.pp` into it (R14). -/
def Obligations.SystemEnableHasThreeWriters : Prop :=
  (∀ (m : PMCGeneric) (psr : PSR), m.pm = true → (enableOK m psr = true ↔ psr.pp = true)) ∧
  (∀ (p : Params) (x : Input) (s t : State), applyInput p x s = .next t → t.psr.pp ≠ s.psr.pp →
    ((∃ v, x = .setPSRpp v ∧ t.psr.pp = v) ∨ (∃ v, x = .restorePSR v ∧ t.psr.pp = v.pp)) ∧ s.psr.cpl = 0#2 ∨
    x = .interruption ∧ t.psr.pp = s.dcr.pp)

/-- The writers of the other status fields: `PSR.up` is written by `sum`, `rum` (presented in any form) and `RestorePSR`;
`PSR.cpl` and `PSR.is` by their own environment step, `RestorePSR` and an interruption (R11 to R13; that an interruption keeps
`PSR.up` is D17's, log 13). -/
def Obligations.StatusFieldsHaveTheirWriters : Prop :=
  ∀ (p : Params) (x : Input) (s t : State), applyInput p x s = .next t →
    (t.psr.up ≠ s.psr.up → (∃ v, x = .restorePSR v ∧ t.psr.up = v.up) ∨
      (∃ i, x = .instr i) ∨ (∃ u w, x = .slot u w) ∨ (∃ bytes n, x = .bundle bytes n)) ∧
    (t.psr.cpl ≠ s.psr.cpl → (∃ v, x = .restorePSR v ∧ t.psr.cpl = v.cpl) ∨
      x = .setCpl t.psr.cpl ∨ (x = .interruption ∧ t.psr.cpl = 0#2)) ∧
    (t.psr.is ≠ s.psr.is → (∃ v, x = .restorePSR v ∧ t.psr.is = v.is) ∨
      x = .setIs t.psr.is ∨ (x = .interruption ∧ t.psr.is = p.isAfterInterruption))

/-- Every other privileged operation is refused at levels 1 to 3 (R103, R105 to R108: D18 and D19, log 14). -/
def Obligations.PrivilegedOperationsAreRefusedAboveLevelZero : Prop :=
  ∀ (p : Params) (s : State), s.psr.cpl ≠ 0#2 →
    (∀ w, applyInput p (.writePMC w) s = .refused .privileged) ∧
    (∀ i v, applyInput p (.writePMD i v) s = .refused .privileged) ∧
    (∀ v, applyInput p (.writeIBR v) s = .refused .privileged) ∧
    (∀ v, applyInput p (.writeDBR v) s = .refused .privileged) ∧
    (∀ v, applyInput p (.writeDCRpp v) s = .refused .privileged) ∧
    (∀ v, applyInput p (.restorePSR v) s = .refused .privileged)

/-- `WritePMC` at level 0 replaces the whole register and changes nothing else: each named register, the register of each
monitor under its own number; a number that is neither is refused (R103: D19, log 14, 22). -/
def Obligations.WritePMCReplacesTheRegister : Prop :=
  ∀ (p : Params) (s : State), s.psr.cpl = 0#2 →
    (∀ v, applyInput p (.writePMC (.pmc0 v)) s = .next { s with pmc0 := v }) ∧
    (∀ v, applyInput p (.writePMC (.pmc8 v)) s = .next { s with pmc8 := v }) ∧
    (∀ v, applyInput p (.writePMC (.pmc9 v)) s = .next { s with pmc9 := v }) ∧
    (∀ v, applyInput p (.writePMC (.pmc11 v)) s = .next { s with pmc11 := v }) ∧
    (∀ v, applyInput p (.writePMC (.pmc13 v)) s = .next { s with pmc13 := v }) ∧
    (∀ k v, ∃ t, applyInput p (.writePMC (.pmc (p.monitorIndex.get k) v)) s = .next t ∧ t.pmc.get k = v ∧
      (∀ j, j ≠ k → t.pmc.get j = s.pmc.get j) ∧ t = { s with pmc := t.pmc }) ∧
    (∀ i v, (∀ k, p.monitorIndex.get k ≠ i) → applyInput p (.writePMC (.pmc i v)) s = .refused .noSuchMonitor)

/-- `WritePMD` at level 0, frozen or not, gives the counter its new value, which `ReadPMD` then reads; the other counters and
everything else stay; a value of more than `CW` bits and a number of no monitor are refused (R105: D19, D27, log 14, 20, 22). -/
def Obligations.WrittenCounterReadsBack : Prop :=
  ∀ (p : Params) (s : State) (v : Nat), s.psr.cpl = 0#2 →
    (∀ k, v < 2 ^ p.CW → ∃ t, applyInput p (.writePMD (p.monitorIndex.get k) v) s = .next t ∧
      readPMD p (p.monitorIndex.get k) t = some v ∧
      (∀ i, i ≠ p.monitorIndex.get k → readPMD p i t = readPMD p i s) ∧ t = { s with pmd := t.pmd }) ∧
    (∀ k, ¬ v < 2 ^ p.CW → applyInput p (.writePMD (p.monitorIndex.get k) v) s = .refused .counterTooWide) ∧
    (∀ i, (∀ k, p.monitorIndex.get k ≠ i) → applyInput p (.writePMD i v) s = .refused .noSuchMonitor)

/-- `WriteIBR`, `WriteDBR`, `WriteDCRpp` at level 0 write their register and nothing else (R106, R107: D19, log 14). -/
def Obligations.RangeAndDefaultControlWrites : Prop :=
  ∀ (p : Params) (s : State), s.psr.cpl = 0#2 →
    (∀ v, applyInput p (.writeIBR v) s = .next { s with ibr := v }) ∧
    (∀ v, applyInput p (.writeDBR v) s = .next { s with dbr := v }) ∧
    (∀ v, applyInput p (.writeDCRpp v) s = .next { s with dcr := { pp := v } })

/-- `RestorePSR` at level 0 installs all four fields; `SetCpl` and `SetIs` change their own field at any level; nothing else
changes (R108, R109: D18, log 14, 31). -/
def Obligations.StatusWritesChangeOnlyTheirFields : Prop :=
  ∀ (p : Params) (s : State),
    (∀ v, s.psr.cpl = 0#2 → applyInput p (.restorePSR v) s = .next { s with psr := v }) ∧
    (∀ v, applyInput p (.setCpl v) s = .next { s with psr := { s.psr with cpl := v } }) ∧
    (∀ v, applyInput p (.setIs v) s = .next { s with psr := { s.psr with is := v } })

/-- Only software unfreezes: a step from a frozen to an unfrozen state is a write of PMC[0] with `fr` zero at level 0 (R104's
"until software clears"; D19, log 14). -/
def Obligations.OnlySoftwareUnfreezes : Prop :=
  ∀ (p : Params) (x : Input) (s t : State), applyInput p x s = .next t → s.pmc0.fr = true → t.pmc0.fr = false →
    ∃ v : PMC0, x = .writePMC (.pmc0 v) ∧ v.fr = false ∧ s.psr.cpl = 0#2

/-- While the level is not 0 and stays so, no step reprograms the monitor: `DCR.pp`, every PMC but the freeze bit, the range
registers and the counters (but by counting) stay, the freeze bit can only be set, and `PSR.pp` changes at an interruption only
(R102, R103, R105 to R108, R127: D18 and D19, log 14). -/
def Obligations.UserLevelCannotReconfigure : Prop :=
  ∀ (p : Params) (x : Input) (s t : State), s.psr.cpl ≠ 0#2 → applyInput p x s = .next t →
    t.dcr = s.dcr ∧ t.pmc0.rest = s.pmc0.rest ∧ (s.pmc0.fr = true → t.pmc0.fr = true) ∧ t.pmc8 = s.pmc8 ∧
    t.pmc9 = s.pmc9 ∧ t.pmc11 = s.pmc11 ∧ t.pmc13 = s.pmc13 ∧ t.pmc = s.pmc ∧ t.ibr = s.ibr ∧ t.dbr = s.dbr ∧
    (x ≠ .interruption → t.psr.pp = s.psr.pp) ∧ (x.presentsEvents = false → t.pmd = s.pmd)

/-! ## Interruptions -/

/-- Delivery of an interruption, at any moment: `DCR.pp` into `PSR.pp`, level 0, `PSR.up` kept (D17, log 13), `PSR.is` the
parameter, nothing else changed; a nested one does the same again; and restoring the interrupted PSR returns (R120, R125). -/
def Obligations.InterruptionDeliveryAndReturn : Prop :=
  ∀ (p : Params) (s : State),
    applyInput p .interruption s = .next { s with
      psr := { is := p.isAfterInterruption, cpl := 0#2, up := s.psr.up, pp := s.dcr.pp } } ∧
    runInputs p [.interruption, .interruption] s = applyInput p .interruption s ∧
    runInputs p [.interruption, .restorePSR s.psr] s = .next s

/-- `DCR.pp` is copied into `PSR.pp` whenever an interruption is delivered, and is written by software only (R15). -/
def Obligations.DefaultControlIsCopiedAtDelivery : Prop :=
  (∀ (p : Params) (s t : State), applyInput p .interruption s = .next t → t.psr.pp = s.dcr.pp ∧ t.dcr = s.dcr) ∧
  (∀ (p : Params) (x : Input) (s t : State), applyInput p x s = .next t → t.dcr ≠ s.dcr →
    ∃ v, x = .writeDCRpp v ∧ t.dcr.pp = v)

/-- Events of a handler. With `DCR.pp` zero: from delivery on, whatever is run until software sets `PSR.pp`, a system-level
monitor does not count. The run may hold any step but those by which software sets `PSR.pp` (`SetPSRpp` of one, `RestorePSR` of a
PSR with `pp` one), makes the monitor a user-level one or writes its counter; it may hold nested interruptions, if `DCR.pp` is
not set to one besides. With `DCR.pp` one, a system-level monitor whose mask has level 0 and whose other checks pass admits the
handler's events (R89, read as C10 reads it: of system-level monitors). -/
def Obligations.HandlerEventsFollowDefaultControl : Prop :=
  (∀ (p : Params) (xs : List Input) (s t : State) (k : Fin 4), s.dcr.pp = false → (s.pmc.get k).pm = true →
    Input.setPSRpp true ∉ xs → (∀ v, Input.restorePSR v ∈ xs → v.pp = false) →
    (∀ v, Input.writePMC (.pmc (p.monitorIndex.get k) v) ∈ xs → v.pm = true) →
    (∀ n, Input.writePMD (p.monitorIndex.get k) n ∉ xs) →
    (Input.writeDCRpp true ∉ xs ∨ Input.interruption ∉ xs) →
    runInputs p (.interruption :: xs) s = .next t → t.pmd.get k = s.pmd.get k) ∧
  (∀ (p : Params) (s t : State) (k : Fin 4) (u : Option UnitInfo), s.dcr.pp = true → (s.pmc.get k).pm = true →
    (s.pmc.get k).plm.getLsbD 0 = true → p.ismAllows (s.pmc.get k).ism p.isAfterInterruption = true →
    p.unitMaskOK (s.pmc.get k).umask (s.pmc.get k).es u = true → s.pmc0.fr = false →
    applyInput p .interruption s = .next t → MonitorAdmits p t (s.pmc.get k).es u k)

/-! ## Refused inputs, the invariant, independence of the matchers -/

/-- Ill-formed inputs are refused, each by its own name: a fetch of an id in flight or at an address of more than `AW` bits, an
issue, retirement, flush or event of an id not in flight, a second issue, a retirement before issue; an event with a data
address of more than `AW` bits; and, whatever data address that fits it carries or lacks, an event of a class that a tag
qualifies without an instruction, or without the tag its class needs, and a memory event without a data address (R61, R64, R66,
R73: D9, U16, U17, log 11, 20). -/
def Obligations.IllFormedInputsAreRefused : Prop :=
  ∀ (p : Params) (s : State) (id : InstrId),
    (∀ ip r, findId s.inflight id = some r → applyInput p (.fetch id ip) s = .refused .idInUse) ∧
    (∀ ip, findId s.inflight id = none → 2 ^ p.AW ≤ ip → applyInput p (.fetch id ip) s = .refused .addressTooWide) ∧
    (∀ enc, findId s.inflight id = none → applyInput p (.issue id enc) s = .refused .idUnknown) ∧
    (findId s.inflight id = none → applyInput p (.retire id) s = .refused .idUnknown) ∧
    (findId s.inflight id = none → applyInput p (.flush id) s = .refused .idUnknown) ∧
    (∀ enc r, findId s.inflight id = some r → r.tag8.isSome = true →
      applyInput p (.issue id enc) s = .refused .alreadyIssued) ∧
    (∀ r, findId s.inflight id = some r → r.tag8 = none ∨ r.tag9 = none →
      applyInput p (.retire id) s = .refused .notIssued) ∧
    (∀ (e : EventInput) a, e.daddr = some a → 2 ^ p.AW ≤ a → applyInput p (.event e) s = .refused .addressTooWide) ∧
    ∀ e : EventInput, (∀ a, e.daddr = some a → a < 2 ^ p.AW) →
      (e.instr = some id → findId s.inflight id = none → applyInput p (.event e) s = .refused .idUnknown) ∧
      (e.instr = none → p.eventClass e.ev ≠ .untagged → applyInput p (.event e) s = .refused .illFormedOccurrence) ∧
      ∀ r, e.instr = some id → findId s.inflight id = some r →
        (r.tag8 = none → p.eventClass e.ev = .downstream ∨ p.eventClass e.ev = .tagged8 ∨ p.eventClass e.ev = .memory →
          applyInput p (.event e) s = .refused .illFormedOccurrence) ∧
        (p.eventClass e.ev = .tagged9 → r.tag9 = none ∨ (p.tag9AlsoNeedsTag8 = true ∧ r.tag8 = none) →
          applyInput p (.event e) s = .refused .illFormedOccurrence) ∧
        (p.eventClass e.ev = .memory → e.daddr = none → applyInput p (.event e) s = .refused .illFormedOccurrence)

/-- Every step keeps the invariant: counters of `CW` bits, an in-flight map in canonical form, whole records (R26, R29). -/
def Obligations.EveryStepKeepsTheInvariant : Prop :=
  ∀ s t : State, Inv Config.params s → step s = .next t → Inv Config.params t

/-- The state after reset meets the invariant; nothing is in flight and no overflow is recorded (R32: D21; the register values
are the model's choice, log 3, and the statement says nothing of them but that counters have `CW` bits). -/
def Obligations.ResetMeetsTheInvariant : Prop :=
  Inv Config.params State.reset ∧ State.reset.inflight = [] ∧ State.reset.overflowPending = false

/-- The two matchers are independent: if no monitor selects an event that `Tag(PMC[9])` qualifies and none is made to, two runs
over the same inputs from states that differ only in PMC[9] and the tags it gave answer alike and give the same counts and
freeze bit (R65, R67, R70). -/
def Obligations.Matcher9AffectsOnlyItsOwnEvent : Prop :=
  ∀ (p : Params) (xs : List Input) (s t : State), SameButMatcher9 s t → NoMonitorSelectsTagged9 p s →
    (∀ x ∈ xs, x.selectsTagged9 p = false) →
    SameAnswer (fun a b => SameButMatcher9 a b ∧ State.observe b = State.observe a)
      (runInputs p xs s) (runInputs p xs t)
end

