-- ==== Sys2Proof/Laws/State.lean ====
section
/-! SUPPORT. One lemma per field for each named update of the state. -/

namespace Sys2Proof.Machine

variable (s : State)

@[simp] theorem State.addDraws_psr (n : Nat) : (s.addDraws n).psr = s.psr := rfl
@[simp] theorem State.addDraws_dcr (n : Nat) : (s.addDraws n).dcr = s.dcr := rfl
@[simp] theorem State.addDraws_pmc0 (n : Nat) : (s.addDraws n).pmc0 = s.pmc0 := rfl
@[simp] theorem State.addDraws_pmc8 (n : Nat) : (s.addDraws n).pmc8 = s.pmc8 := rfl
@[simp] theorem State.addDraws_pmc9 (n : Nat) : (s.addDraws n).pmc9 = s.pmc9 := rfl
@[simp] theorem State.addDraws_pmc11 (n : Nat) : (s.addDraws n).pmc11 = s.pmc11 := rfl
@[simp] theorem State.addDraws_pmc13 (n : Nat) : (s.addDraws n).pmc13 = s.pmc13 := rfl
@[simp] theorem State.addDraws_pmc (n : Nat) : (s.addDraws n).pmc = s.pmc := rfl
@[simp] theorem State.addDraws_pmd (n : Nat) : (s.addDraws n).pmd = s.pmd := rfl
@[simp] theorem State.addDraws_ibr (n : Nat) : (s.addDraws n).ibr = s.ibr := rfl
@[simp] theorem State.addDraws_dbr (n : Nat) : (s.addDraws n).dbr = s.dbr := rfl
@[simp] theorem State.addDraws_inflight (n : Nat) : (s.addDraws n).inflight = s.inflight := rfl
@[simp] theorem State.addDraws_overflowPending (n : Nat) : (s.addDraws n).overflowPending = s.overflowPending := rfl
@[simp] theorem State.addDraws_drawCount (n : Nat) : (s.addDraws n).drawCount = s.drawCount + n := rfl
@[simp] theorem State.addDraws_inputs (n : Nat) : (s.addDraws n).inputs = s.inputs := rfl

@[simp] theorem State.setPSR_psr (v : PSR) : (s.setPSR v).psr = v := rfl
@[simp] theorem State.setPSR_dcr (v : PSR) : (s.setPSR v).dcr = s.dcr := rfl
@[simp] theorem State.setPSR_pmc0 (v : PSR) : (s.setPSR v).pmc0 = s.pmc0 := rfl
@[simp] theorem State.setPSR_pmc8 (v : PSR) : (s.setPSR v).pmc8 = s.pmc8 := rfl
@[simp] theorem State.setPSR_pmc9 (v : PSR) : (s.setPSR v).pmc9 = s.pmc9 := rfl
@[simp] theorem State.setPSR_pmc11 (v : PSR) : (s.setPSR v).pmc11 = s.pmc11 := rfl
@[simp] theorem State.setPSR_pmc13 (v : PSR) : (s.setPSR v).pmc13 = s.pmc13 := rfl
@[simp] theorem State.setPSR_pmc (v : PSR) : (s.setPSR v).pmc = s.pmc := rfl
@[simp] theorem State.setPSR_pmd (v : PSR) : (s.setPSR v).pmd = s.pmd := rfl
@[simp] theorem State.setPSR_ibr (v : PSR) : (s.setPSR v).ibr = s.ibr := rfl
@[simp] theorem State.setPSR_dbr (v : PSR) : (s.setPSR v).dbr = s.dbr := rfl
@[simp] theorem State.setPSR_inflight (v : PSR) : (s.setPSR v).inflight = s.inflight := rfl
@[simp] theorem State.setPSR_overflowPending (v : PSR) : (s.setPSR v).overflowPending = s.overflowPending := rfl
@[simp] theorem State.setPSR_drawCount (v : PSR) : (s.setPSR v).drawCount = s.drawCount := rfl
@[simp] theorem State.setPSR_inputs (v : PSR) : (s.setPSR v).inputs = s.inputs := rfl

@[simp] theorem State.setInflight_psr (m : InFlightMap) : (s.setInflight m).psr = s.psr := rfl
@[simp] theorem State.setInflight_dcr (m : InFlightMap) : (s.setInflight m).dcr = s.dcr := rfl
@[simp] theorem State.setInflight_pmc0 (m : InFlightMap) : (s.setInflight m).pmc0 = s.pmc0 := rfl
@[simp] theorem State.setInflight_pmc8 (m : InFlightMap) : (s.setInflight m).pmc8 = s.pmc8 := rfl
@[simp] theorem State.setInflight_pmc9 (m : InFlightMap) : (s.setInflight m).pmc9 = s.pmc9 := rfl
@[simp] theorem State.setInflight_pmc11 (m : InFlightMap) : (s.setInflight m).pmc11 = s.pmc11 := rfl
@[simp] theorem State.setInflight_pmc13 (m : InFlightMap) : (s.setInflight m).pmc13 = s.pmc13 := rfl
@[simp] theorem State.setInflight_pmc (m : InFlightMap) : (s.setInflight m).pmc = s.pmc := rfl
@[simp] theorem State.setInflight_pmd (m : InFlightMap) : (s.setInflight m).pmd = s.pmd := rfl
@[simp] theorem State.setInflight_ibr (m : InFlightMap) : (s.setInflight m).ibr = s.ibr := rfl
@[simp] theorem State.setInflight_dbr (m : InFlightMap) : (s.setInflight m).dbr = s.dbr := rfl
@[simp] theorem State.setInflight_inflight (m : InFlightMap) : (s.setInflight m).inflight = m := rfl
@[simp] theorem State.setInflight_overflowPending (m : InFlightMap) : (s.setInflight m).overflowPending = s.overflowPending := rfl
@[simp] theorem State.setInflight_drawCount (m : InFlightMap) : (s.setInflight m).drawCount = s.drawCount := rfl
@[simp] theorem State.setInflight_inputs (m : InFlightMap) : (s.setInflight m).inputs = s.inputs := rfl

@[simp] theorem State.setCounter_psr (k : Fin 4) (v : Nat) : (s.setCounter k v).psr = s.psr := rfl
@[simp] theorem State.setCounter_dcr (k : Fin 4) (v : Nat) : (s.setCounter k v).dcr = s.dcr := rfl
@[simp] theorem State.setCounter_pmc0 (k : Fin 4) (v : Nat) : (s.setCounter k v).pmc0 = s.pmc0 := rfl
@[simp] theorem State.setCounter_pmc8 (k : Fin 4) (v : Nat) : (s.setCounter k v).pmc8 = s.pmc8 := rfl
@[simp] theorem State.setCounter_pmc9 (k : Fin 4) (v : Nat) : (s.setCounter k v).pmc9 = s.pmc9 := rfl
@[simp] theorem State.setCounter_pmc11 (k : Fin 4) (v : Nat) : (s.setCounter k v).pmc11 = s.pmc11 := rfl
@[simp] theorem State.setCounter_pmc13 (k : Fin 4) (v : Nat) : (s.setCounter k v).pmc13 = s.pmc13 := rfl
@[simp] theorem State.setCounter_pmc (k : Fin 4) (v : Nat) : (s.setCounter k v).pmc = s.pmc := rfl
@[simp] theorem State.setCounter_pmd (k : Fin 4) (v : Nat) : (s.setCounter k v).pmd = s.pmd.set k v := rfl
@[simp] theorem State.setCounter_ibr (k : Fin 4) (v : Nat) : (s.setCounter k v).ibr = s.ibr := rfl
@[simp] theorem State.setCounter_dbr (k : Fin 4) (v : Nat) : (s.setCounter k v).dbr = s.dbr := rfl
@[simp] theorem State.setCounter_inflight (k : Fin 4) (v : Nat) : (s.setCounter k v).inflight = s.inflight := rfl
@[simp] theorem State.setCounter_overflowPending (k : Fin 4) (v : Nat) : (s.setCounter k v).overflowPending = s.overflowPending := rfl
@[simp] theorem State.setCounter_drawCount (k : Fin 4) (v : Nat) : (s.setCounter k v).drawCount = s.drawCount := rfl
@[simp] theorem State.setCounter_inputs (k : Fin 4) (v : Nat) : (s.setCounter k v).inputs = s.inputs := rfl

@[simp] theorem State.setMonitor_psr (k : Fin 4) (v : PMCGeneric) : (s.setMonitor k v).psr = s.psr := rfl
@[simp] theorem State.setMonitor_dcr (k : Fin 4) (v : PMCGeneric) : (s.setMonitor k v).dcr = s.dcr := rfl
@[simp] theorem State.setMonitor_pmc0 (k : Fin 4) (v : PMCGeneric) : (s.setMonitor k v).pmc0 = s.pmc0 := rfl
@[simp] theorem State.setMonitor_pmc8 (k : Fin 4) (v : PMCGeneric) : (s.setMonitor k v).pmc8 = s.pmc8 := rfl
@[simp] theorem State.setMonitor_pmc9 (k : Fin 4) (v : PMCGeneric) : (s.setMonitor k v).pmc9 = s.pmc9 := rfl
@[simp] theorem State.setMonitor_pmc11 (k : Fin 4) (v : PMCGeneric) : (s.setMonitor k v).pmc11 = s.pmc11 := rfl
@[simp] theorem State.setMonitor_pmc13 (k : Fin 4) (v : PMCGeneric) : (s.setMonitor k v).pmc13 = s.pmc13 := rfl
@[simp] theorem State.setMonitor_pmc (k : Fin 4) (v : PMCGeneric) : (s.setMonitor k v).pmc = s.pmc.set k v := rfl
@[simp] theorem State.setMonitor_pmd (k : Fin 4) (v : PMCGeneric) : (s.setMonitor k v).pmd = s.pmd := rfl
@[simp] theorem State.setMonitor_ibr (k : Fin 4) (v : PMCGeneric) : (s.setMonitor k v).ibr = s.ibr := rfl
@[simp] theorem State.setMonitor_dbr (k : Fin 4) (v : PMCGeneric) : (s.setMonitor k v).dbr = s.dbr := rfl
@[simp] theorem State.setMonitor_inflight (k : Fin 4) (v : PMCGeneric) : (s.setMonitor k v).inflight = s.inflight := rfl
@[simp] theorem State.setMonitor_overflowPending (k : Fin 4) (v : PMCGeneric) : (s.setMonitor k v).overflowPending = s.overflowPending := rfl
@[simp] theorem State.setMonitor_drawCount (k : Fin 4) (v : PMCGeneric) : (s.setMonitor k v).drawCount = s.drawCount := rfl
@[simp] theorem State.setMonitor_inputs (k : Fin 4) (v : PMCGeneric) : (s.setMonitor k v).inputs = s.inputs := rfl

end Sys2Proof.Machine
end

