-- ==== Sys2Proof/Laws/Ops.lean ====
section
/-! SUPPORT. The laws of the shared operations: the four monitors, the in-flight map and its canonical form, the privilege
gate. -/

namespace Sys2Proof

/-! ## The four monitors -/

@[simp] theorem Four.get_of {α : Type} (g : Fin 4 → α) (k : Fin 4) : (Four.of g).get k = g k := by
  fin_cases k <;> rfl

@[simp] theorem Four.get_set_same {α : Type} (f : Four α) (k : Fin 4) (v : α) : (f.set k v).get k = v := by
  fin_cases k <;> rfl

theorem Four.get_set_other {α : Type} (f : Four α) {j k : Fin 4} (v : α) (h : j ≠ k) : (f.set k v).get j = f.get j := by
  fin_cases k <;> fin_cases j <;> first | rfl | exact absurd rfl h

theorem Four.get_set {α : Type} (f : Four α) (j k : Fin 4) (v : α) :
    (f.set k v).get j = if j = k then v else f.get j := by
  split
  · next h => subst h; exact f.get_set_same j v
  · next h => exact f.get_set_other v h

theorem Four.ext_get {α : Type} {f g : Four α} (h : ∀ k, f.get k = g.get k) : f = g := by
  obtain ⟨a, b, c, d⟩ := f
  obtain ⟨a', b', c', d'⟩ := g
  have h0 : a = a' := h 0
  have h1 : b = b' := h 1
  have h2 : c = c' := h 2
  have h3 : d = d' := h 3
  rw [h0, h1, h2, h3]

/-- The place found for a register number holds that number. -/
theorem Params.monitorIndex_of_monitorAt {p : Params} {i : Nat} {k : Fin 4} (h : p.monitorAt i = some k) :
    p.monitorIndex.get k = i := by
  unfold Params.monitorAt at h
  split at h
  · next e => cases h; exact e.symm
  split at h
  · next e => cases h; exact e.symm
  split at h
  · next e => cases h; exact e.symm
  split at h
  · next e => cases h; exact e.symm
  · cases h

/-- Every monitor is found at its own register number. -/
theorem Params.monitorAt_monitorIndex (p : Params) (k : Fin 4) : p.monitorAt (p.monitorIndex.get k) = some k := by
  have hd := p.monitors_distinct
  simp only [List.nodup_cons, List.mem_cons, List.not_mem_nil, or_false, not_or, List.nodup_nil, not_false_eq_true,
    and_true] at hd
  obtain ⟨⟨h01, h02, h03⟩, ⟨h12, h13⟩, h23⟩ := hd
  fin_cases k
  · simp [Params.monitorAt, Four.get]
  · simp [Params.monitorAt, Four.get, Ne.symm h01]
  · simp [Params.monitorAt, Four.get, Ne.symm h02, Ne.symm h12]
  · simp [Params.monitorAt, Four.get, Ne.symm h03, Ne.symm h13, Ne.symm h23]

/-- The registers the source gives other functions are no monitors (R16, D23). -/
theorem Params.monitorAt_named {p : Params} {i : Nat} (h : i ∈ namedRegisters) : p.monitorAt i = none := by
  cases hk : p.monitorAt i with
  | none => rfl
  | some k =>
    have hi := Params.monitorIndex_of_monitorAt hk
    refine absurd h (p.monitors_not_named i ?_)
    fin_cases k <;> simp [← hi, Four.get]

end Sys2Proof

namespace Sys2Proof.Machine

/-! ## The in-flight map -/

@[simp] theorem findId_putId_same (m : InFlightMap) (id : InstrId) (r : InFlight) : findId (putId m id r) id = some r := by
  induction m with
  | nil => simp [putId, findId]
  | cons a m ih =>
    obtain ⟨k, x⟩ := a
    simp only [putId]
    split
    · simp [findId]
    split
    · simp [findId]
    · next h1 h2 => simp [findId, Ne.symm h2, ih]

theorem findId_putId_other (m : InFlightMap) {id j : InstrId} (r : InFlight) (h : j ≠ id) :
    findId (putId m id r) j = findId m j := by
  induction m with
  | nil => simp [putId, findId, Ne.symm h]
  | cons a m ih =>
    obtain ⟨k, x⟩ := a
    simp only [putId]
    split
    · simp [findId, Ne.symm h]
    split
    · next h1 h2 => subst h2; simp [findId, Ne.symm h]
    · simp [findId, ih]

@[simp] theorem findId_removeId_same (m : InFlightMap) (id : InstrId) : findId (removeId m id) id = none := by
  induction m with
  | nil => rfl
  | cons a m ih =>
    obtain ⟨k, x⟩ := a
    simp only [removeId]
    split
    · exact ih
    · next h => simp [findId, h, ih]

theorem findId_removeId_other (m : InFlightMap) {id j : InstrId} (h : j ≠ id) :
    findId (removeId m id) j = findId m j := by
  induction m with
  | nil => rfl
  | cons a m ih =>
    obtain ⟨k, x⟩ := a
    simp only [removeId]
    split
    · next e => subst e; simp [findId, Ne.symm h, ih]
    · simp [findId, ih]

/-- The canonical form: each id lies below every later one. -/
theorem InFlightMap.wf_iff (m : InFlightMap) : m.wf = true ↔ m.Pairwise (fun a b => a.1 < b.1) := by
  induction m with
  | nil => simp [InFlightMap.wf]
  | cons a m ih =>
    obtain ⟨k, x⟩ := a
    cases m with
    | nil => simp [InFlightMap.wf]
    | cons b m =>
      obtain ⟨l, y⟩ := b
      simp only [InFlightMap.wf, Bool.and_eq_true, decide_eq_true_eq, ih]
      constructor
      · rintro ⟨hk, hp⟩
        refine List.pairwise_cons.2 ⟨fun c hc => ?_, hp⟩
        rcases List.mem_cons.1 hc with rfl | hc
        · exact hk
        · exact lt_trans hk (List.rel_of_pairwise_cons hp hc)
      · intro hp
        exact ⟨List.rel_of_pairwise_cons hp (List.mem_cons_self ..), hp.of_cons⟩

theorem mem_putId {m : InFlightMap} {id : InstrId} {r : InFlight} {c : InstrId × InFlight} (h : c ∈ putId m id r) :
    c = (id, r) ∨ c ∈ m := by
  induction m with
  | nil => exact .inl (by simpa [putId] using h)
  | cons a m ih =>
    obtain ⟨k, x⟩ := a
    simp only [putId] at h
    split at h
    · rcases List.mem_cons.1 h with h | h
      · exact .inl h
      · exact .inr h
    split at h
    · rcases List.mem_cons.1 h with h | h
      · exact .inl h
      · exact .inr (List.mem_cons_of_mem _ h)
    · rcases List.mem_cons.1 h with h | h
      · exact .inr (h ▸ List.mem_cons_self ..)
      · exact (ih h).imp_right (List.mem_cons_of_mem _)

theorem mem_removeId {m : InFlightMap} {id : InstrId} {c : InstrId × InFlight} (h : c ∈ removeId m id) : c ∈ m := by
  induction m with
  | nil => exact h
  | cons a m ih =>
    obtain ⟨k, x⟩ := a
    simp only [removeId] at h
    split at h
    · exact List.mem_cons_of_mem _ (ih h)
    · rcases List.mem_cons.1 h with h | h
      · exact h ▸ List.mem_cons_self ..
      · exact List.mem_cons_of_mem _ (ih h)

theorem wf_putId {m : InFlightMap} (h : m.wf = true) (id : InstrId) (r : InFlight) : (putId m id r).wf = true := by
  rw [InFlightMap.wf_iff] at h ⊢
  induction m with
  | nil => simp [putId]
  | cons a m ih =>
    obtain ⟨k, x⟩ := a
    have hrel := fun c hc => List.rel_of_pairwise_cons (a' := c) h hc
    simp only [putId]
    split
    · next hlt =>
      refine List.pairwise_cons.2 ⟨fun c hc => ?_, h⟩
      rcases List.mem_cons.1 hc with rfl | hc
      · exact hlt
      · exact lt_trans hlt (hrel c hc)
    split
    · next heq =>
      subst heq
      exact List.pairwise_cons.2 ⟨hrel, h.of_cons⟩
    · next hlt hne =>
      refine List.pairwise_cons.2 ⟨fun c hc => ?_, ih h.of_cons⟩
      rcases mem_putId hc with rfl | hc
      · exact lt_of_le_of_ne (not_lt.1 hlt) (Ne.symm hne)
      · exact hrel c hc

theorem wf_removeId {m : InFlightMap} (h : m.wf = true) (id : InstrId) : (removeId m id).wf = true := by
  rw [InFlightMap.wf_iff] at h ⊢
  induction m with
  | nil => exact h
  | cons a m ih =>
    obtain ⟨k, x⟩ := a
    simp only [removeId]
    split
    · exact ih h.of_cons
    · exact List.pairwise_cons.2 ⟨fun c hc => List.rel_of_pairwise_cons h (mem_removeId hc), ih h.of_cons⟩

/-! ## The privilege gate -/

theorem privileged_level0 {s : State} (h : s.psr.cpl = 0#2) (act : Result) : privileged s act = act := if_pos h

theorem privileged_other {s : State} (h : s.psr.cpl ≠ 0#2) (act : Result) :
    privileged s act = .refused .privileged := if_neg h

/-- A privileged operation that answers a next state ran at level 0 and answered it itself. -/
theorem privileged_next {s t : State} {act : Result} (h : privileged s act = .next t) :
    s.psr.cpl = 0#2 ∧ act = .next t := by
  unfold privileged at h
  split at h
  · next h0 => exact ⟨h0, h⟩
  · cases h

end Sys2Proof.Machine
end

