-- ==== Sys2Proof/Laws/Counting.lean ====
section
/-! SUPPORT. What counting can do, said once: the loop over the monitors counts exactly the qualified ones, and a monitor is
qualified exactly when it admits the occurrence and the tag check holds. -/

namespace Sys2Proof.Machine

theorem CountingOnly.refl (s : State) : CountingOnly s s := ⟨rfl, id, id⟩

theorem CountingOnly.trans {s t u : State} (h : CountingOnly s t) (g : CountingOnly t u) : CountingOnly s u := by
  refine ⟨?_, fun a => g.freeze_kept (h.freeze_kept a), fun a => g.pending_kept (h.pending_kept a)⟩
  rw [g.frame, h.frame]

/-! ### What counting leaves as it was, field by field -/

theorem CountingOnly.psr {s t : State} (h : CountingOnly s t) : t.psr = s.psr := by rw [h.frame]

theorem CountingOnly.dcr {s t : State} (h : CountingOnly s t) : t.dcr = s.dcr := by rw [h.frame]

theorem CountingOnly.pmc8 {s t : State} (h : CountingOnly s t) : t.pmc8 = s.pmc8 := by rw [h.frame]

theorem CountingOnly.pmc9 {s t : State} (h : CountingOnly s t) : t.pmc9 = s.pmc9 := by rw [h.frame]

theorem CountingOnly.pmc11 {s t : State} (h : CountingOnly s t) : t.pmc11 = s.pmc11 := by rw [h.frame]

theorem CountingOnly.pmc13 {s t : State} (h : CountingOnly s t) : t.pmc13 = s.pmc13 := by rw [h.frame]

theorem CountingOnly.pmc {s t : State} (h : CountingOnly s t) : t.pmc = s.pmc := by rw [h.frame]

theorem CountingOnly.ibr {s t : State} (h : CountingOnly s t) : t.ibr = s.ibr := by rw [h.frame]

theorem CountingOnly.dbr {s t : State} (h : CountingOnly s t) : t.dbr = s.dbr := by rw [h.frame]

theorem CountingOnly.inflight {s t : State} (h : CountingOnly s t) : t.inflight = s.inflight := by rw [h.frame]

theorem CountingOnly.inputs {s t : State} (h : CountingOnly s t) : t.inputs = s.inputs := by rw [h.frame]

theorem CountingOnly.pmc0_rest {s t : State} (h : CountingOnly s t) : t.pmc0.rest = s.pmc0.rest := by rw [h.frame]

theorem CountingOnly.addDraws (s : State) (n : Nat) : CountingOnly s (s.addDraws n) := ⟨rfl, id, id⟩

theorem countingOnly_markOverflow (s : State) : CountingOnly s (markOverflow s) :=
  ⟨rfl, fun h => by simp [markOverflow, h], fun h => by simp [markOverflow, h]⟩

theorem countingOnly_setCounter (s : State) (k : Fin 4) (v : Nat) : CountingOnly s (s.setCounter k v) :=
  ⟨rfl, id, id⟩

@[simp] theorem markOverflow_pmd (s : State) : (markOverflow s).pmd = s.pmd := rfl

theorem countMonitor_pmd (p : Params) (k : Fin 4) (s : State) :
    (countMonitor p k s).pmd = s.pmd.set k ((s.pmd.get k + 1) % 2 ^ p.CW) := by
  unfold countMonitor
  dsimp only
  split <;> rfl

theorem countMonitor_only (p : Params) (k : Fin 4) (s : State) : CountingOnly s (countMonitor p k s) := by
  unfold countMonitor
  dsimp only
  split
  · exact (countingOnly_setCounter ..).trans (countingOnly_markOverflow _)
  · exact countingOnly_setCounter ..

theorem countIf_pmd (p : Params) (q : Four Bool) (k j : Fin 4) (s : State) :
    (countIf p q k s).pmd.get j =
      if j = k ∧ q.get k = true then (s.pmd.get k + 1) % 2 ^ p.CW else s.pmd.get j := by
  unfold countIf
  split
  · next h => simp [countMonitor_pmd, Four.get_set, h]
  · next h => simp [h]

theorem countIf_only (p : Params) (q : Four Bool) (k : Fin 4) (s : State) : CountingOnly s (countIf p q k s) := by
  unfold countIf
  split
  · exact countMonitor_only ..
  · exact .refl s

/-- Without an overflow of monitor k, its turn in the loop leaves the freeze bit and `overflowPending` as they were. -/
theorem countIf_no_overflow {p : Params} {q : Four Bool} {k : Fin 4} {s : State}
    (h : q.get k = true → s.pmd.get k + 1 ≠ 2 ^ p.CW) :
    (countIf p q k s).pmc0 = s.pmc0 ∧ (countIf p q k s).overflowPending = s.overflowPending := by
  unfold countIf
  split
  · next hq => simp [countMonitor, h hq]
  · exact ⟨rfl, rfl⟩

/-- Each counter after the whole loop. -/
theorem countAll_pmd (p : Params) (q : Four Bool) (s : State) (k : Fin 4) :
    (countAll p q s).pmd.get k = if q.get k = true then (s.pmd.get k + 1) % 2 ^ p.CW else s.pmd.get k := by
  unfold countAll
  fin_cases k <;> simp [countIf_pmd]

theorem countAll_only (p : Params) (q : Four Bool) (s : State) : CountingOnly s (countAll p q s) :=
  (((countIf_only p q 0 s).trans (countIf_only ..)).trans (countIf_only ..)).trans (countIf_only ..)

theorem countAll_no_overflow {p : Params} {q : Four Bool} {s : State}
    (h : ∀ k, q.get k = true → s.pmd.get k + 1 ≠ 2 ^ p.CW) :
    (countAll p q s).pmc0 = s.pmc0 ∧ (countAll p q s).overflowPending = s.overflowPending := by
  have h0 := countIf_no_overflow (s := s) (h 0)
  have h1 := countIf_no_overflow (k := 1) (s := countIf p q 0 s) (by simpa [countIf_pmd] using h 1)
  have h2 := countIf_no_overflow (k := 2) (s := countIf p q 1 (countIf p q 0 s)) (by simpa [countIf_pmd] using h 2)
  have h3 := countIf_no_overflow (k := 3) (s := countIf p q 2 (countIf p q 1 (countIf p q 0 s)))
    (by simpa [countIf_pmd] using h 3)
  unfold countAll
  exact ⟨h3.1.trans (h2.1.trans (h1.1.trans h0.1)), h3.2.trans (h2.2.trans (h1.2.trans h0.2))⟩

/-- The loop of R86 counts exactly the qualified monitors. -/
theorem countAll_exact (p : Params) (q : Four Bool) (s : State) :
    CountedExactly p (fun k => q.get k = true) s (countAll p q s) where
  counts k hk := by simp [countAll_pmd, hk]
  keeps k hk := by simp [countAll_pmd, hk]
  only := countAll_only p q s
  no_overflow h := countAll_no_overflow h

/-- Qualification is the conjunction of the tag check and the monitor's own checks (R86). -/
theorem qualified_iff (p : Params) (s : State) (o : Occurrence) (tag : Bool) (k : Fin 4) :
    qualified p s o tag (s.pmc.get k) = true ↔ tag = true ∧ MonitorAdmits p s o.ev o.unit k := by
  simp only [qualified, selectOK, umaskOK, plmOK, enableOK, ismOK, freezeOK, Bool.and_eq_true, decide_eq_true_eq,
    Bool.not_eq_true']
  constructor
  · rintro ⟨⟨⟨⟨⟨⟨hs, hu⟩, ht⟩, hl⟩, he⟩, hi⟩, hf⟩
    exact ⟨ht, hs, hu, hl, fun h => by simpa [h] using he, fun h => by simpa [h] using he, hi, hf⟩
  · rintro ⟨ht, hs, hu, hl, h0, h1, hi, hf⟩
    refine ⟨⟨⟨⟨⟨⟨hs, hu⟩, ht⟩, hl⟩, ?_⟩, hi⟩, hf⟩
    split
    · next h => exact h1 h
    · next h => exact h0 (by simpa using h)

theorem CountedExactly.congr {p : Params} {c d : Fin 4 → Prop} {s t : State} (h : CountedExactly p c s t)
    (e : ∀ k, c k ↔ d k) : CountedExactly p d s t where
  counts k hk := h.counts k ((e k).2 hk)
  keeps k hk := h.keeps k fun hc => hk ((e k).1 hc)
  only := h.only
  no_overflow hn := h.no_overflow fun k hk => hn k ((e k).1 hk)

/-- Free values used by the tag check change nothing that counting looks at. -/
theorem CountedExactly.of_addDraws {p : Params} {c : Fin 4 → Prop} {s t : State} {n : Nat}
    (h : CountedExactly p c (s.addDraws n) t) : CountedExactly p c s t where
  counts := h.counts
  keeps := h.keeps
  only := (CountingOnly.addDraws s n).trans h.only
  no_overflow := h.no_overflow

/-- What one occurrence does: it is refused exactly when it is ill formed, and otherwise exactly the monitors that admit it
count, if its tag check holds (R73, R86). -/
theorem occur_of_tagOK {p : Params} {o : Occurrence} {s : State} {tag : Bool} (h : tagOK p s o = some tag) :
    ∃ t, occur p o s = .next t ∧
      CountedExactly p (fun k => tag = true ∧ MonitorAdmits p s o.ev o.unit k) s t := by
  refine ⟨_, by rw [occur, h], ?_⟩
  refine ((countAll_exact p _ _).of_addDraws).congr fun k => ?_
  rw [Four.get_of]
  exact qualified_iff p s o tag k

/-- An ill-formed occurrence is refused (R73). -/
theorem occur_refused {p : Params} {o : Occurrence} {s : State} (h : tagOK p s o = none) :
    occur p o s = .refused .illFormedOccurrence := by
  rw [occur, h]

theorem occur_next {p : Params} {o : Occurrence} {s t : State} (h : occur p o s = .next t) :
    ∃ tag, tagOK p s o = some tag ∧
      CountedExactly p (fun k => tag = true ∧ MonitorAdmits p s o.ev o.unit k) s t := by
  cases ht : tagOK p s o with
  | none => simp [occur, ht] at h
  | some tag =>
    obtain ⟨u, hu, hc⟩ := occur_of_tagOK ht
    rw [hu] at h
    cases h
    exact ⟨tag, rfl, hc⟩

theorem daddrFits_iff (p : Params) (d : Option Addr) : daddrFits p d = true ↔ ∀ a, d = some a → a < 2 ^ p.AW := by
  cases d <;> simp [daddrFits]

theorem eventStep_of_none {p : Params} {e : EventInput} {s : State} (hd : ∀ a, e.daddr = some a → a < 2 ^ p.AW)
    (hi : e.instr = none) :
    eventStep p e s = occur p { ev := e.ev, instr := none, daddr := e.daddr, unit := e.unit } s := by
  simp [eventStep, (daddrFits_iff p _).2 hd, hi]

theorem eventStep_of_unknown {p : Params} {e : EventInput} {s : State} {id : InstrId}
    (hd : ∀ a, e.daddr = some a → a < 2 ^ p.AW) (hi : e.instr = some id) (hf : findId s.inflight id = none) :
    eventStep p e s = .refused .idUnknown := by
  simp [eventStep, (daddrFits_iff p _).2 hd, hi, hf]

theorem eventStep_of_found {p : Params} {e : EventInput} {s : State} {id : InstrId} {r : InFlight}
    (hd : ∀ a, e.daddr = some a → a < 2 ^ p.AW) (hi : e.instr = some id) (hf : findId s.inflight id = some r) :
    eventStep p e s = occur p { ev := e.ev, instr := some r, daddr := e.daddr, unit := e.unit } s := by
  simp [eventStep, (daddrFits_iff p _).2 hd, hi, hf]

theorem eventStep_of_wide {p : Params} {e : EventInput} {s : State} {a : Addr} (h : e.daddr = some a)
    (ha : 2 ^ p.AW ≤ a) : eventStep p e s = .refused .addressTooWide := by
  simp [eventStep, daddrFits, h, not_lt.2 ha]

/-- A next state of `Event` comes from one occurrence whose record is the one in flight (R73, R86). -/
theorem eventStep_next {p : Params} {e : EventInput} {s t : State} (h : eventStep p e s = .next t) :
    (∀ id, e.instr = some id → (findId s.inflight id).isSome) ∧
      occur p { ev := e.ev, instr := e.instr.bind (findId s.inflight), daddr := e.daddr, unit := e.unit } s =
        .next t := by
  unfold eventStep at h
  split at h
  · cases h
  cases hi : e.instr with
  | none => exact ⟨by simp, by simpa [hi] using h⟩
  | some id =>
    simp only [hi] at h
    cases hf : findId s.inflight id with
    | none => simp [hf] at h
    | some r => exact ⟨by simp [hf], by simpa [hf] using h⟩

/-- A next state of `Retire` comes from removing the record and the two retirement occurrences in order (R66). -/
theorem retireStep_next {p : Params} {id : InstrId} {s t : State} (h : retireStep p id s = .next t) :
    ∃ r u, findId s.inflight id = some r ∧ r.tag8.isSome ∧ r.tag9.isSome ∧
      occur p (retirementOccurrence p.taggedRetired8 r) (s.setInflight (removeId s.inflight id)) = .next u ∧
      occur p (retirementOccurrence p.taggedRetired9 r) u = .next t := by
  unfold retireStep at h
  cases hf : findId s.inflight id with
  | none => simp [hf] at h
  | some r =>
    simp only [hf] at h
    split at h
    · next ht =>
      rw [Bool.and_eq_true] at ht
      split at h
      · next u hu => exact ⟨r, u, rfl, ht.1, ht.2, hu, h⟩
      · cases h
      · cases h
    · cases h

end Sys2Proof.Machine
end

