-- ==== Sys2Proof/Laws/Decode.lean ====
section
/-! SUPPORT. The number that the bytes of a bundle stand for, said once. -/

namespace Sys2Proof

/-- The byte at offset i has weight `256 ^ i` (R57). -/
theorem littleEndian_eq_sum (bytes : List Byte) :
    littleEndian bytes = ∑ i ∈ Finset.range bytes.length, (bytes.getD i 0).toNat * 256 ^ i := by
  induction bytes with
  | nil => rfl
  | cons b bs ih =>
    rw [littleEndian, ih, List.length_cons, Finset.sum_range_succ', Finset.mul_sum, add_comm]
    congr 1
    · exact Finset.sum_congr rfl fun i _ => by simp only [List.getD_cons_succ]; ring
    · simp

theorem littleEndian_lt (bytes : List Byte) : littleEndian bytes < 256 ^ bytes.length := by
  induction bytes with
  | nil => simp [littleEndian]
  | cons b bs ih =>
    rw [littleEndian, List.length_cons, pow_succ]
    have := b.isLt
    omega

end Sys2Proof
end

