-- ==== Sys2Proof/Laws/Inputs.lean ====
section
/-! SUPPORT. What a step can do, said once for all inputs: the instructions, the steps that present events, and every other
input. -/

namespace Sys2Proof.Machine

/-- What `sum` and `rum` share, in every case (R100, R101). -/
theorem userMaskInstr_next {v : Bool} {imm24 : Imm24} {qp : PredReg} {s t : State}
    (h : userMaskInstr v imm24 qp s = .next t) :
    t = { s with
      psr := { s.psr with up := if predicateHolds qp s && !imm24.selectsReserved && selectsUp imm24 then v else s.psr.up }
      drawCount := s.drawCount + predicateDraws qp } := by
  unfold userMaskInstr at h
  split at h
  · next hr =>
    split at h
    · cases h
    · cases h
      simp [State.addDraws, hr]
  · next hr =>
    cases h
    cases hp : predicateHolds qp s <;> cases hu : selectsUp imm24 <;>
      simp [State.addDraws, State.setPSR, writeUserMask, hr, hu]

/-- An instruction changes `PSR.up` and the count of free values, and nothing else (R100, R101). -/
theorem exec_next {i : Instr} {s t : State} (h : exec i s = .next t) :
    t = { s with psr := { s.psr with up := t.psr.up }, drawCount := t.drawCount } := by
  cases i <;> exact (userMaskInstr_next h).trans (by rw [userMaskInstr_next h])

theorem underIA64_runDecoded_next {d : Except DecodeReject Instr} {s t : State}
    (h : underIA64 s (runDecoded d s) = .next t) :
    t = { s with psr := { s.psr with up := t.psr.up }, drawCount := t.drawCount } := by
  unfold underIA64 at h
  split at h
  · cases h
  · cases d with
    | ok i => exact exec_next h
    | error r => cases h

/-- A step that presents events only counts, apart from the instruction that retires. -/
theorem presentsEvents_only {p : Params} {x : Input} {s t : State} (hx : x.presentsEvents = true)
    (h : applyInput p x s = .next t) : ∃ m, CountingOnly { s with inflight := m } t := by
  cases x with
  | retire id =>
    obtain ⟨r, u, -, -, -, hu, ht⟩ := retireStep_next h
    obtain ⟨_, -, cu⟩ := occur_next hu
    obtain ⟨_, -, ct⟩ := occur_next ht
    exact ⟨_, cu.only.trans ct.only⟩
  | event e =>
    obtain ⟨_, -, c⟩ := occur_next (eventStep_next h).2
    exact ⟨_, c.only⟩
  | _ => cases hx

/-- A monitor that admits no event in any state with this PSR and these PMCs, frozen if this one is, keeps its counter in a
step that presents events. -/
theorem presentsEvents_keeps {p : Params} {x : Input} {s t : State} {k : Fin 4} (hx : x.presentsEvents = true)
    (h : applyInput p x s = .next t)
    (hn : ∀ (u : State) (ev : EventId) (un : Option UnitInfo), u.psr = s.psr → u.pmc = s.pmc →
      (s.pmc0.fr = true → u.pmc0.fr = true) → ¬ MonitorAdmits p u ev un k) :
    t.pmd.get k = s.pmd.get k := by
  cases x with
  | retire id =>
    obtain ⟨r, u, -, -, -, hu, ht⟩ := retireStep_next h
    obtain ⟨_, -, cu⟩ := occur_next hu
    obtain ⟨_, -, ct⟩ := occur_next ht
    have keep_u := cu.keeps k fun hk => hn (s.setInflight (removeId s.inflight id)) _ _ rfl rfl (fun hf => hf) hk.2
    have keep_t := ct.keeps k fun hk => hn _ _ _ cu.only.psr cu.only.pmc cu.only.freeze_kept hk.2
    exact keep_t.trans keep_u
  | event e =>
    obtain ⟨_, -, c⟩ := occur_next (eventStep_next h).2
    exact c.keeps k fun hk => hn _ _ _ rfl rfl (fun hf => hf) hk.2
  | _ => cases hx

/-- What a privileged write leaves, for each of them (R102, R103, R105 to R108). -/
inductive PrivilegedWrite (p : Params) (s : State) : Input → State → Prop where
  | setPSRpp (v : Bool) : PrivilegedWrite p s (.setPSRpp v) { s with psr := { s.psr with pp := v } }
  | pmc0 (v : PMC0) : PrivilegedWrite p s (.writePMC (.pmc0 v)) { s with pmc0 := v }
  | pmc8 (v : MatchWord) : PrivilegedWrite p s (.writePMC (.pmc8 v)) { s with pmc8 := v }
  | pmc9 (v : MatchWord) : PrivilegedWrite p s (.writePMC (.pmc9 v)) { s with pmc9 := v }
  | pmc11 (v : PMC11) : PrivilegedWrite p s (.writePMC (.pmc11 v)) { s with pmc11 := v }
  | pmc13 (v : PMC13) : PrivilegedWrite p s (.writePMC (.pmc13 v)) { s with pmc13 := v }
  | pmc (i : Nat) (k : Fin 4) (v : PMCGeneric) (hk : p.monitorAt i = some k) :
      PrivilegedWrite p s (.writePMC (.pmc i v)) { s with pmc := s.pmc.set k v }
  | pmd (i : Nat) (k : Fin 4) (v : Nat) (hk : p.monitorAt i = some k) (hv : v < 2 ^ p.CW) :
      PrivilegedWrite p s (.writePMD i v) { s with pmd := s.pmd.set k v }
  | ibr (v : IBRState) : PrivilegedWrite p s (.writeIBR v) { s with ibr := v }
  | dbr (v : DBRState) : PrivilegedWrite p s (.writeDBR v) { s with dbr := v }
  | dcrpp (v : Bool) : PrivilegedWrite p s (.writeDCRpp v) { s with dcr := { pp := v } }
  | restorePSR (v : PSR) : PrivilegedWrite p s (.restorePSR v) { s with psr := v }

/-- Every way in which an input that presents no events can answer a next state. -/
inductive QuietNext (p : Params) (s : State) : Input → State → Prop where
  | instruction (x : Input) (t : State) (hx : x.isPipeline = false)
      (ht : t = { s with psr := { s.psr with up := t.psr.up }, drawCount := t.drawCount }) : QuietNext p s x t
  | pipeline (x : Input) (t : State) (hx : x.isPipeline = true)
      (ht : t = { s with inflight := t.inflight, drawCount := t.drawCount }) : QuietNext p s x t
  | setCpl (v : BitVec 2) : QuietNext p s (.setCpl v) { s with psr := { s.psr with cpl := v } }
  | setIs (v : Bool) : QuietNext p s (.setIs v) { s with psr := { s.psr with is := v } }
  | interruption : QuietNext p s .interruption (takeInterruption p s)
  | privileged (x : Input) (t : State) (h0 : s.psr.cpl = 0#2) (h : PrivilegedWrite p s x t) : QuietNext p s x t

theorem applyInput_quiet {p : Params} {x : Input} {s t : State} (hx : x.presentsEvents = false)
    (h : applyInput p x s = .next t) : QuietNext p s x t := by
  cases x with
  | slot u w => exact .instruction _ _ rfl (underIA64_runDecoded_next h)
  | bundle b n => exact .instruction _ _ rfl (underIA64_runDecoded_next h)
  | instr i => exact .instruction _ _ rfl (exec_next h)
  | fetch id ip =>
    refine .pipeline _ _ rfl ?_
    simp only [applyInput, fetchStep] at h
    split at h
    · cases h
    split at h
    · cases h
    split at h <;> cases h <;> rfl
  | issue id enc =>
    refine .pipeline _ _ rfl ?_
    simp only [applyInput, issueStep] at h
    split at h
    · cases h
    split at h
    · cases h
    split at h <;> cases h <;> rfl
  | flush id =>
    refine .pipeline _ _ rfl ?_
    simp only [applyInput, flushStep] at h
    split at h <;> cases h
    rfl
  | retire id => cases hx
  | event e => cases hx
  | writePMC w =>
    obtain ⟨h0, h⟩ := privileged_next h
    refine .privileged _ _ h0 ?_
    cases w with
    | pmc i v =>
      dsimp only at h
      split at h
      · next k hk => cases h; exact .pmc i k v hk
      · cases h
    | pmc0 v => cases h; exact .pmc0 v
    | pmc8 v => cases h; exact .pmc8 v
    | pmc9 v => cases h; exact .pmc9 v
    | pmc11 v => cases h; exact .pmc11 v
    | pmc13 v => cases h; exact .pmc13 v
  | writePMD i v =>
    obtain ⟨h0, h⟩ := privileged_next h
    refine .privileged _ _ h0 ?_
    split at h
    · cases h
    · next k hk =>
      split at h
      · next hv => cases h; exact .pmd i k v hk hv
      · cases h
  | setPSRpp v => obtain ⟨h0, h⟩ := privileged_next h; cases h; exact .privileged _ _ h0 (.setPSRpp v)
  | writeIBR v => obtain ⟨h0, h⟩ := privileged_next h; cases h; exact .privileged _ _ h0 (.ibr v)
  | writeDBR v => obtain ⟨h0, h⟩ := privileged_next h; cases h; exact .privileged _ _ h0 (.dbr v)
  | writeDCRpp v => obtain ⟨h0, h⟩ := privileged_next h; cases h; exact .privileged _ _ h0 (.dcrpp v)
  | restorePSR v => obtain ⟨h0, h⟩ := privileged_next h; cases h; exact .privileged _ _ h0 (.restorePSR v)
  | setCpl v => cases h; exact .setCpl v
  | setIs v => cases h; exact .setIs v
  | interruption => cases h; exact .interruption

/-- A run of a first input and others answers a next state only through the next state of the first. -/
theorem runInputs_cons_next {p : Params} {x : Input} {xs : List Input} {s t : State} :
    runInputs p (x :: xs) s = .next t ↔ ∃ u, applyInput p x s = .next u ∧ runInputs p xs u = .next t := by
  rw [runInputs]
  cases applyInput p x s <;> simp

end Sys2Proof.Machine
end

