-- ==== Sys2Proof/Laws/PerInstr.lean ====
section
/-! SUPPORT. Statements made per instruction, about the instruction as syntax. -/

namespace Sys2Proof.Laws.EncodingMatchesRow

/-- The encoding of an instruction agrees with its row of the opcode table: under the mask column it is the match column
(R57). -/
def Statement (i : Instr) : Prop := encode i &&& rowMask = rowMatch i

/-- The fixed bits of format M44, whatever the operand fields hold. -/
theorem encodeM44_masked (x4 : BitVec 4) (imm24 : Imm24) (qp : PredReg) :
    encodeM44 x4 imm24 qp &&& rowMask = x4.setWidth 41 <<< 27 := by
  apply BitVec.eq_of_getLsbD_eq
  intro i hi
  interval_cases i <;> simp [encodeM44, rowMask]

theorem sum (imm24 : Imm24) (qp : PredReg) : Statement (.sum imm24 qp) := by
  rw [Statement, encode, encodeM44_masked]
  rfl

theorem rum (imm24 : Imm24) (qp : PredReg) : Statement (.rum imm24 qp) := by
  rw [Statement, encode, encodeM44_masked]
  rfl

end Sys2Proof.Laws.EncodingMatchesRow
end

