-- ==== Sys2Proof/Tests/Slice0.lean ====
section
/-! SUPPORT. The model's own tests. Expected results are those of 95_test_vectors.md (T numbers) and of the words R57 writes
out; the parameters are its section 0's. At the end, for every statement with hypotheses, a witness that meets them. -/

namespace Sys2Proof.Tests

open Sys2Proof Sys2Proof.Machine

/-! ## The test configuration (95_test_vectors.md section 0) -/

def eUnt : EventId := ⟨1⟩
def eDs : EventId := ⟨2⟩
def eMem : EventId := ⟨3⟩
def eTag8 : EventId := ⟨8⟩
def eTag9 : EventId := ⟨9⟩

/-- `V`, which matches `e1` and not `e2`. -/
def matchV : MatchWord := 7#64

def e1 : Enc := ⟨1⟩
def e2 : Enc := ⟨2⟩

/-- With the range state of code 1: addresses below 100 are in range (`a_in` = 10, `a_out` = 200). -/
def inRange (code : Nat) (a : Addr) : Bool := code == 1 && decide (a < 100)

def testClass (e : EventId) : EventClass :=
  match e.code with
  | 2 => .downstream
  | 3 => .memory
  | 8 => .tagged8
  | 9 => .tagged9
  | _ => .untagged

def tp : Params :=
  { inIBRRange := fun r _ a => inRange r.code a
    inDBRRange := fun r _ a => inRange r.code a
    opmatch := fun v e => v == allOnes || (v == matchV && e == e1)
    opmatch_allOnes := by intro; rfl
    eventClass := testClass }

/-- The same, with the PMC[9] variant of the retirement event needing both tags (C9). -/
def tpBoth : Params := { tp with tag9AlsoNeedsTag8 := true }

/-- The same, with a template table that gives every slot type B. -/
def tpBranches : Params := { tp with slotUnit := fun _ _ => .B }

/-! ## Small states -/

/-- A user-level monitor of level 3 and 0, IA-64 only, that selects `ev`. -/
def userMonitor (ev : EventId) : PMCGeneric :=
  { es := ev, plm := 0b1001#4, pm := false, ism := 1#2, umask := ⟨0⟩, rest := ⟨0⟩ }

def idleMonitor : PMCGeneric := userMonitor ⟨77⟩

def inFlight (ibr t8 t9 : Bool) : InFlight :=
  { ip := 10, enc := some e1, ibrTag := ibr, tag8 := some t8, tag9 := some t9 }

def fetched (ibr : Bool) : InFlight := { ip := 10, enc := none, ibrTag := ibr, tag8 := none, tag9 := none }

/-- Level 0, `PSR.up` one, row 1 of Table 6-3, range states of code 1, monitor 4 selecting `ev4` and monitor 5 `ev5`. -/
def base (ev4 ev5 : EventId) : State :=
  { State.reset with
    psr := { is := false, cpl := 0#2, up := true, pp := false }
    pmc8 := allOnes
    pmc9 := allOnes
    pmc11 := { pt := true, rest := ⟨0⟩ }
    pmc13 := { ta := true, rest := ⟨0⟩ }
    pmc := ⟨userMonitor ev4, userMonitor ev5, idleMonitor, idleMonitor⟩
    ibr := ⟨1⟩
    dbr := ⟨1⟩ }

/-- `base` with instruction 1 in flight. -/
def withOne (ev4 ev5 : EventId) (r : InFlight) : State := { base ev4 ev5 with inflight := [(1, r)] }

def atLevel (l : BitVec 2) (s : State) : State := { s with psr := { s.psr with cpl := l } }
def ia32 (s : State) : State := { s with psr := { s.psr with is := true } }
def rangeOn (s : State) : State := { s with pmc13 := { s.pmc13 with ta := false } }
def dataRangeOn (s : State) : State := { s with pmc11 := { s.pmc11 with pt := false } }
def frozen (s : State) : State := { s with pmc0 := { s.pmc0 with fr := true } }

def untagged : EventInput := { ev := eUnt, instr := none, daddr := none, unit := none }
def downOf1 : EventInput := { ev := eDs, instr := some 1, daddr := none, unit := none }
def memOf1 (d : Addr) : EventInput := { ev := eMem, instr := some 1, daddr := some d, unit := none }

/-! ## Reading an answer -/

def after (r : Result) : Option State :=
  match r with
  | .next s => some s
  | .fault _ => none
  | .refused _ => none

def refusedAs (r : Result) : Option Refusal :=
  match r with
  | .next _ => none
  | .fault _ => none
  | .refused x => some x

def upAfter (r : Result) : Option Bool := (after r).map (·.psr.up)
def pmdAfter (r : Result) : Option (Four Nat) := (after r).map (·.pmd)
def recordAfter (r : Result) : Option InFlight := (after r).bind fun s => findId s.inflight 1
def do1 (x : Input) (s : State) : Result := applyInput tp x s

/-! ## Well-formedness -/

theorem test_wf_sum_refuses_bit0 : (Instr.sum 0x1#24 0#6).wellFormed = false := by decide
theorem test_wf_rum_refuses_bit6 : (Instr.rum 0x40#24 0#6).wellFormed = false := by decide
theorem test_wf_sum_refuses_bit23 : (Instr.sum 0x800000#24 0#6).wellFormed = false := by decide
theorem test_wf_accepts_the_user_mask : (Instr.rum 0x3e#24 63#6).wellFormed = true := by decide

/-! ## Decoding: words written out from R57's fields -/

/-- opcode 0, i 0, x3 0, i2d 0, x4 4, imm21a 4, qp 0. -/
theorem test_decode_sum : decodeSlot .M 0b0000_0_000_00_0100_000000000000000000100_000000#41 = .ok (.sum 4#24 0#6) := by
  decide
/-- opcode 0, i 1, x3 0, i2d 3, x4 5, imm21a 62, qp 5. -/
theorem test_decode_rum :
    decodeSlot .M 0b0000_1_000_11_0101_000000000000000111110_000101#41 = .ok (.rum 0xe0003e#24 5#6) := by decide
/-- i2d alone is immediate bits 22:21. -/
theorem test_decode_sum_i2d :
    decodeSlot .M 0b0000_0_000_01_0100_000000000000000000000_111111#41 = .ok (.sum 0x200000#24 63#6) := by decide
theorem test_decode_other_x4 : decodeSlot .M 0x00030000100#41 = .error .notInTable := by decide
theorem test_decode_other_x3 : decodeSlot .M 0x00220000100#41 = .error .notInTable := by decide
theorem test_decode_other_opcode : decodeSlot .M 0x02020000100#41 = .error .notInTable := by decide
theorem test_decode_in_an_I_slot : decodeSlot .I 0x00020000100#41 = .error .notMUnit := by decide
/-- Slot 1 of a bundle whose template is 3 and whose other slots are zero: bits 86:46 hold `rum 0x4`. -/
theorem test_decode_in_bundle :
    decodeInBundle tp [3, 0, 0, 0, 0, 0, 0x40, 0, 0, 0x0a, 0, 0, 0, 0, 0, 0] .slot1 = .ok (.rum 4#24 0#6) := by decide
theorem test_encode_sum : encode (.sum 4#24 0#6) = 0x00020000100#41 := by decide
theorem test_encode_rum : encode (.rum 0xe0003e#24 5#6) = 0x011a8000f85#41 := by decide
theorem test_table_word_above_the_slot : decodeTableWord 48 (2 ^ 41 + 0x20000100) = none := by decide

/-! ## `sum` and `rum` (T60 to T69) -/

/-- T60, at level 3. -/
theorem test_sum_sets : upAfter (exec (.sum 4#24 0#6) (atLevel 3#2 State.reset)) = some true := by decide
/-- T64. -/
theorem test_sum_other_bit : upAfter (exec (.sum 2#24 0#6) State.reset) = some false := by decide
/-- T62, at level 3. -/
theorem test_rum_clears : upAfter (exec (.rum 4#24 0#6) (atLevel 3#2 (base eUnt eUnt))) = some false := by decide
/-- T65. -/
theorem test_rum_other_bits : upAfter (exec (.rum 0x3a#24 0#6) (base eUnt eUnt)) = some true := by decide
/-- T67, T68. -/
theorem test_reserved_bits :
    refusedAs (exec (.sum 1#24 0#6) State.reset) = some .reservedField ∧
    refusedAs (exec (.rum 0x40#24 0#6) State.reset) = some .reservedField := by decide
/-- The word of R57, placed after reset, runs as the next instruction. -/
theorem test_step_runs_placed_sum :
    upAfter (step (State.withFetchWord State.reset 48 0x20000100)) = some true := by decide
theorem test_step_at_the_end : step State.reset = .fault .endOfRun := rfl

/-! ## `Fetch` and `Issue` (T1 to T17) -/

/-- T1 and T3. -/
theorem test_fetch_out_of_range :
    recordAfter (do1 (.fetch 1 200) (base eUnt eUnt)) = some { fetched true with ip := 200 } ∧
    recordAfter (do1 (.fetch 1 200) (rangeOn (base eUnt eUnt))) = some { fetched false with ip := 200 } := by decide
/-- T2. -/
theorem test_fetch_in_range : recordAfter (do1 (.fetch 1 10) (rangeOn (base eUnt eUnt))) = some (fetched true) := by decide
/-- T5: a write of PMC[13] leaves the carried tag. -/
theorem test_carried_range_tag :
    recordAfter (do1 (.writePMC (.pmc13 { ta := true, rest := ⟨0⟩ })) (withOne eUnt eUnt (fetched false))) =
      some (fetched false) := by decide
/-- T12: the matchers are independent. -/
theorem test_issue_independent :
    recordAfter (do1 (.issue 1 e2) { withOne eUnt eUnt (fetched true) with pmc8 := matchV }) =
      some { inFlight true false true with enc := some e2 } := by decide
/-- T13: AND with the range tag. -/
theorem test_issue_out_of_range :
    recordAfter (do1 (.issue 1 e1) (withOne eUnt eUnt (fetched false))) = some (inFlight false false false) := by decide
/-- T7 and T17. -/
theorem test_ids_checked :
    refusedAs (do1 (.fetch 1 10) (withOne eUnt eUnt (fetched true))) = some .idInUse ∧
    refusedAs (do1 (.issue 1 e1) (base eUnt eUnt)) = some .idUnknown := by decide

/-! ## The tag check (T20 to T33) -/

/-- T25 and T29. -/
theorem test_downstream_uses_tag8 :
    tagOK tp State.reset ⟨eDs, some (inFlight true false true), none, none⟩ = some false ∧
    tagOK tp State.reset ⟨eDs, some (inFlight true true false), none, none⟩ = some true := by decide
/-- T26 and T27. -/
theorem test_memory_uses_the_data_range :
    tagOK tp (dataRangeOn (base eMem eUnt)) ⟨eMem, some (inFlight true true true), some 200, none⟩ = some false ∧
    tagOK tp (dataRangeOn (base eMem eUnt)) ⟨eMem, some (inFlight true true true), some 10, none⟩ = some true := by decide
/-- T28, and T33's second half. -/
theorem test_memory_with_pt :
    tagOK tp (base eMem eUnt) ⟨eMem, some (inFlight true false true), some 200, none⟩ = some false ∧
    tagOK tp (ia32 (base eMem eUnt)) ⟨eMem, some (inFlight true true true), some 200, none⟩ = some true := by decide
/-- T30, with the parameter false and true. -/
theorem test_tagged9 :
    tagOK tp State.reset ⟨eTag9, some (inFlight true false true), none, none⟩ = some true ∧
    tagOK tpBoth State.reset ⟨eTag9, some (inFlight true false true), none, none⟩ = some false := by decide
/-- T31 and T32. -/
theorem test_ill_formed_occurrences :
    refusedAs (do1 (.event ⟨eMem, some 1, none, none⟩) (withOne eMem eUnt (inFlight true true true))) =
      some .illFormedOccurrence ∧
    refusedAs (do1 (.event ⟨eDs, none, none, none⟩) (base eDs eUnt)) = some .illFormedOccurrence := by decide

/-! ## The general checks (section 2.4) -/

theorem test_plm_1001 :
    (List.map (fun l => plmOK (userMonitor eUnt) { is := false, cpl := l, up := false, pp := false })
      [0#2, 1#2, 2#2, 3#2]) = [true, false, false, true] := by decide
theorem test_enable_ignores_the_other_bit :
    enableOK (userMonitor eUnt) { is := false, cpl := 0#2, up := false, pp := true } = false ∧
    enableOK { userMonitor eUnt with pm := true } { is := false, cpl := 0#2, up := false, pp := true } = true := by decide
/-- T41. -/
theorem test_ism_under_ia32 : ismOK tp (userMonitor eUnt) (ia32 (base eUnt eUnt)).psr = false := by decide
/-- T46: two monitors on one event, one of them with `plm` = 0001, at level 3. -/
theorem test_two_monitors_one_event :
    pmdAfter (do1 (.event untagged) { atLevel 3#2 (base eUnt eUnt) with
      pmc := ⟨userMonitor eUnt, { userMonitor eUnt with plm := 1#4 }, idleMonitor, idleMonitor⟩ }) =
      some ⟨1, 0, 0, 0⟩ := by decide

/-! ## Counting (T43 to T56) -/

/-- T51. -/
theorem test_count_to_the_last_value :
    pmdAfter (do1 (.event untagged) { base eUnt eDs with pmd := ⟨0xfffffffe, 0, 0, 0⟩ }) =
      some ⟨0xffffffff, 0, 0, 0⟩ := by decide
/-- T53: the overflow of one monitor does not stop another. -/
theorem test_count_wraps :
    pmdAfter (do1 (.event untagged) { base eUnt eUnt with pmd := ⟨0xffffffff, 7, 0, 0⟩ }) = some ⟨0, 8, 0, 0⟩ := by decide
/-- T43. -/
theorem test_frozen_counts_nothing : pmdAfter (do1 (.event untagged) (frozen (base eUnt eUnt))) = some ⟨0, 0, 0, 0⟩ := by
  decide
/-- T55. -/
theorem test_write_counter_while_frozen :
    pmdAfter (do1 (.writePMD 4 0) { frozen (base eUnt eUnt) with pmd := ⟨5, 5, 5, 5⟩ }) = some ⟨0, 5, 5, 5⟩ := by decide

/-! ## `Retire` and `Flush` (T90 to T95) -/

/-- T91. -/
theorem test_retire_counts_tag8 :
    pmdAfter (do1 (.retire 1) (withOne eTag8 eTag9 (inFlight true true false))) = some ⟨1, 0, 0, 0⟩ := by decide
/-- T90, and the key is removed. -/
theorem test_retire_counts_both :
    (after (do1 (.retire 1) (withOne eTag8 eTag9 (inFlight true true true)))).map (fun s => (s.pmd, s.inflight)) =
      some (⟨1, 1, 0, 0⟩, []) := by decide
/-- T93. -/
theorem test_retire_before_issue :
    refusedAs (do1 (.retire 1) (withOne eTag8 eTag9 (fetched true))) = some .notIssued := by decide
/-- T94. -/
theorem test_flush :
    (after (do1 (.flush 1) (withOne eTag8 eTag9 (inFlight true true true)))).map (fun s => (s.pmd, s.inflight)) =
      some (⟨0, 0, 0, 0⟩, []) := by decide

/-! ## Software operations and interruptions (T70 to T83) -/

/-- T70 and T71. -/
theorem test_set_pp :
    (after (do1 (.setPSRpp true) State.reset)).map (·.psr.pp) = some true ∧
    refusedAs (do1 (.setPSRpp true) (atLevel 3#2 State.reset)) = some .privileged := by decide
/-- T72. -/
theorem test_write_freeze :
    (after (do1 (.writePMC (.pmc0 { fr := true, rest := ⟨5⟩ })) State.reset)).map (·.pmc0) =
      some { fr := true, rest := ⟨5⟩ } := by decide
/-- T74. -/
theorem test_write_dcr :
    (after (do1 (.writeDCRpp true) State.reset)).map (fun s => (s.dcr.pp, s.psr.pp)) = some (true, false) := by decide
/-- T79, at level 2. -/
theorem test_privileged_writes :
    refusedAs (do1 (.writePMD 4 0) (atLevel 2#2 State.reset)) = some .privileged ∧
    refusedAs (do1 (.writeIBR ⟨2⟩) (atLevel 2#2 State.reset)) = some .privileged ∧
    refusedAs (do1 (.writeDBR ⟨2⟩) (atLevel 2#2 State.reset)) = some .privileged ∧
    refusedAs (do1 (.writeDCRpp false) (atLevel 2#2 State.reset)) = some .privileged := by decide
/-- T75. -/
theorem test_restore_psr :
    (after (do1 (.restorePSR { is := false, cpl := 3#2, up := true, pp := false }) State.reset)).map (·.psr) =
      some { is := false, cpl := 3#2, up := true, pp := false } := by decide
/-- T77 and T78. -/
theorem test_set_cpl_and_is :
    (after (do1 (.setCpl 0#2) (atLevel 3#2 (base eUnt eUnt)))).map (·.psr) =
      some { is := false, cpl := 0#2, up := true, pp := false } ∧
    (after (do1 (.setIs true) State.reset)).map (·.psr.is) = some true := by decide
/-- T81. -/
theorem test_interruption :
    (after (do1 .interruption { State.reset with
      psr := { is := true, cpl := 3#2, up := false, pp := false }, dcr := { pp := true } })).map (·.psr) =
      some { is := false, cpl := 0#2, up := false, pp := true } := by decide

/-! ## Witnesses: for each statement with hypotheses, a state and operands that meet them, one for each clause -/

theorem witness_EncodeOfDecodeIsIdentity : decodeSlot .M 0x011a8000f85#41 = .ok (.rum 0xe0003e#24 5#6) := by decide

theorem witness_OperandsAreTheSlotsFields :
    decodeSlot .M 0x11a7ffffff#41 = .ok (.sum 0xffffff#24 63#6) ∧
    decodeSlot .M 0x00028000000#41 = .ok (.rum 0#24 0#6) := by decide

/-- The bytes of `test_decode_in_bundle`, whose number is 3 + 0x28000100 * 2^46, and a byte too few. -/
theorem witness_BundleFieldsAreTheStoredBits :
    3 + 0x28000100 * 2 ^ 46 = ∑ i ∈ Finset.range 16,
      (([3, 0, 0, 0, 0, 0, 0x40, 0, 0, 0x0a, 0, 0, 0, 0, 0, 0] : List Byte).getD i 0).toNat * 256 ^ i ∧
    ([3, 0, 0, 0, 0, 0, 0x40, 0, 0, 0x0a, 0, 0, 0, 0, 0, 0] : List Byte).length = 16 ∧
    ([3, 0, 0, 0, 0, 0, 0x40, 0, 0, 0x0a, 0, 0, 0, 0, 0] : List Byte).length ≠ 16 := by decide

theorem witness_StepPerformsOldestInput :
    ({ State.reset with inputs := [.interruption] } : State).inputs = .interruption :: [] ∧ State.reset.inputs = [] :=
  ⟨rfl, rfl⟩

theorem witness_StepRunsDecodedInstruction :
    (State.reset.psr.is = false ∧ decodeSlot .M 0x00020000100#41 = .ok (.sum 4#24 0#6)) ∧
    (decodeBundle (encodeBundle ⟨0#5, 0#41, 0x00028000100#41, 0#41⟩) = .ok ⟨0#5, 0#41, 0x00028000100#41, 0#41⟩ ∧
      tp.slotUnit 0#5 .slot1 = .M ∧
      decodeSlot .M (Bundle.slot ⟨0#5, 0#41, 0x00028000100#41, 0#41⟩ .slot1) = .ok (.rum 4#24 0#6)) ∧
    ({ State.reset with inputs := [.instr (.sum 4#24 0#6)] } : State).inputs = .instr (.sum 4#24 0#6) :: [] ∧
    decodeTableWord 48 0x20000100 = some (.sum 4#24 0#6) := by decide

theorem witness_OtherSlotsAreRefused :
    (State.reset.psr.is = false ∧ decodeSlot .M 0x00030000100#41 = .error .notInTable ∧
      decodeSlot .LX 0x00020000100#41 = .error .notMUnit) ∧
    (ia32 State.reset).psr.is = true ∧ (List.replicate 15 (0 : Byte)).length ≠ 16 ∧
    decodeInBundle tp (List.replicate 16 0) .slot2 = .error .notInTable ∧
    (decodeBundle (List.replicate 16 0) = .ok ⟨0#5, 0#41, 0#41, 0#41⟩ ∧ tp.slotUnit 0#5 .slot2 = .M ∧
      decodeSlot .M (Bundle.slot ⟨0#5, 0#41, 0#41, 0#41⟩ .slot2) = .error .notInTable) ∧
    tpBranches.slotUnit 0#5 .slot2 ≠ .M ∧ decodeInBundle tpBranches (List.replicate 16 0) .slot2 = .error .notMUnit := by
  decide

theorem witness_MachineRunPerformsTheInputs : State.reset.inputs = [] := rfl

theorem witness_SumSetsUserMonitorEnable : (0x3e#24 : Imm24).getLsbD 0 = false ∧ (0x3e#24 : Imm24).extractLsb' 6 18 = 0#18 := by
  decide

theorem witness_RumClearsUserMonitorEnable : (4#24 : Imm24).getLsbD 0 = false ∧ (4#24 : Imm24).extractLsb' 6 18 = 0#18 := by
  decide

theorem witness_ReservedMaskIsRefused :
    (1#24 : Imm24).getLsbD 0 = true ∧ (0x40#24 : Imm24).extractLsb' 6 18 ≠ 0#18 ∧
    (0x800000#24 : Imm24).extractLsb' 6 18 ≠ 0#18 := by decide

theorem witness_InstructionsChangeOnlyUserEnable :
    (∃ t, exec (.sum 4#24 0#6) (base eUnt eUnt) = .next t) ∧ (base eUnt eUnt).psr.up = true ∧
    (∃ t, exec (.rum 4#24 0#6) State.reset = .next t) ∧ State.reset.psr.up = false :=
  ⟨⟨_, rfl⟩, rfl, ⟨_, rfl⟩, rfl⟩

theorem witness_FetchStoresTheRangeTag :
    findId State.reset.inflight 1 = none ∧ 2 ^ 64 - 1 < 2 ^ tp.AW ∧ State.reset.psr.is = false := by decide

theorem witness_IssueStoresBothOpcodeTags :
    findId (withOne eUnt eUnt (fetched true)).inflight 1 = some (fetched true) ∧ (fetched true).tag8 = none ∧
    (withOne eUnt eUnt (fetched true)).psr.is = false := by decide

theorem witness_FlushRemovesOnlyItsInstruction :
    (findId (withOne eUnt eUnt (fetched true)).inflight 1).isSome = true := by decide

/-- Every mode of Table 6-3 has a state; row 5's (both instruction checks on, the data check off) stands for them. -/
theorem witness_QualificationModesOfTheTable :
    (base eUnt eUnt).psr.is = false ∧ findId (base eUnt eUnt).inflight 1 = none ∧ 10 < 2 ^ tp.AW ∧
    (base eUnt eUnt).pmc13.ta = true ∧ (base eUnt eUnt).pmc8 = allOnes ∧ (base eUnt eUnt).pmc11.pt = true ∧
    (rangeOn (base eUnt eUnt)).pmc13.ta = false ∧ (dataRangeOn (base eUnt eUnt)).pmc11.pt = false ∧
    tp.eventClass eDs = .downstream ∧ tp.eventClass eMem = .memory := by decide

theorem witness_TagsAreCarriedThroughRuns :
    findId (withOne eUnt eUnt (fetched false)).inflight 1 = some (fetched false) ∧
    (∀ x ∈ [Input.writePMC (.pmc13 ⟨true, ⟨0⟩⟩), Input.fetch 2 10, Input.flush 2], x.actsOn 1 = false) ∧
    ∃ t, runInputs tp [.writePMC (.pmc13 ⟨true, ⟨0⟩⟩), .fetch 2 10, .flush 2] (withOne eUnt eUnt (fetched false)) =
      .next t :=
  ⟨by decide, by decide, ⟨_, rfl⟩⟩

theorem witness_InstructionEventsCountExactly :
    downOf1.instr = some 1 ∧
    findId (withOne eDs eTag9 (inFlight true true true)).inflight 1 = some (inFlight true true true) ∧
    (inFlight true true true).tag8 = some true ∧ (inFlight true true true).tag9 = some true ∧ downOf1.daddr = none ∧
    tp.eventClass eDs = .downstream ∧ tp.eventClass eTag8 = .tagged8 ∧ tp.eventClass eTag9 = .tagged9 := by decide

theorem witness_MemoryEventsNeedTheDataRange :
    tp.eventClass (memOf1 10).ev = .memory ∧ (memOf1 10).instr = some 1 ∧
    findId (dataRangeOn (withOne eMem eUnt (inFlight true true true))).inflight 1 = some (inFlight true true true) ∧
    (inFlight true true true).tag8 = some true ∧ (memOf1 10).daddr = some 10 ∧ 10 < 2 ^ tp.AW ∧
    (withOne eMem eUnt (inFlight true true true)).pmc11.pt = true ∧
    (dataRangeOn (withOne eMem eUnt (inFlight true true true))).pmc11.pt = false ∧
    (dataRangeOn (withOne eMem eUnt (inFlight true true true))).psr.is = false := by decide

theorem witness_UntaggedEventsCountExactly :
    tp.eventClass untagged.ev = .untagged ∧ untagged.instr = none ∧ untagged.daddr = none := by decide

theorem witness_RetirementPresentsBothVariants :
    findId (withOne eTag8 eTag9 (inFlight true true false)).inflight 1 = some (inFlight true true false) ∧
    (inFlight true true false).tag8 = some true ∧ (inFlight true true false).tag9 = some false := by decide

/-- At level 1, which the mask 1001 lacks; the two corner masks; and a state in which an event is presented. -/
theorem witness_LevelMaskGatesCounting :
    ({ userMonitor eUnt with plm := 0#4 } : PMCGeneric).plm = 0#4 ∧
    ({ userMonitor eUnt with plm := 15#4 } : PMCGeneric).plm = 15#4 ∧
    (Input.event untagged).presentsEvents = true ∧
    (∃ t, do1 (.event untagged) (atLevel 1#2 (base eUnt eUnt)) = .next t) ∧
    ((atLevel 1#2 (base eUnt eUnt)).pmc.get 0).plm.getLsbD (atLevel 1#2 (base eUnt eUnt)).psr.cpl.toNat = false :=
  ⟨rfl, rfl, rfl, ⟨_, rfl⟩, by decide⟩

/-- `base` with monitor 5 a system-level one: with `up` and `pp` zero. -/
def bothKinds : State :=
  { base eUnt eUnt with
    psr := { is := false, cpl := 0#2, up := false, pp := false }
    pmc := ⟨userMonitor eUnt, { userMonitor eUnt with pm := true }, idleMonitor, idleMonitor⟩ }

theorem witness_EnableBitGatesCounting :
    (∃ t, do1 (.event untagged) bothKinds = .next t) ∧
    ((bothKinds.pmc.get 0).pm = false ∧ bothKinds.psr.up = false) ∧
    ((bothKinds.pmc.get 1).pm = true ∧ bothKinds.psr.pp = false) :=
  ⟨⟨_, rfl⟩, by decide, by decide⟩

/-- `bothKinds` at level 3 with both bits one: monitor 4 has the given user mask, monitor 5 is system-level with 1001. -/
def scopes (plm : BitVec 4) : State :=
  { bothKinds with
    psr := { is := false, cpl := 3#2, up := true, pp := true }
    pmc := ⟨{ userMonitor eUnt with plm := plm }, { userMonitor eUnt with pm := true }, idleMonitor, idleMonitor⟩ }

theorem witness_MonitoringScopesOfTheFigures :
    (∃ t, do1 (.event untagged) (scopes 0b1000#4) = .next t ∧ t.pmd.get 0 ≠ (scopes 0b1000#4).pmd.get 0) ∧
    ((scopes 0b1000#4).pmc.get 0).pm = false ∧ ((scopes 0b1000#4).pmc.get 0).plm = 0b1000#4 ∧
    (∃ t, do1 (.event untagged) (scopes 0b1001#4) = .next t ∧ t.pmd.get 0 ≠ (scopes 0b1001#4).pmd.get 0 ∧
      t.pmd.get 1 ≠ (scopes 0b1001#4).pmd.get 1) ∧
    ((scopes 0b1001#4).pmc.get 0).plm = 0b1001#4 ∧ ((scopes 0b1001#4).pmc.get 1).pm = true ∧
    ((scopes 0b1001#4).pmc.get 1).plm = 0b1001#4 :=
  ⟨⟨_, rfl, by decide⟩, rfl, rfl, ⟨_, rfl, by decide, by decide⟩, rfl, rfl, rfl⟩

theorem witness_IA64OnlyMonitorsIgnoreIA32Code :
    (userMonitor eUnt).ism = tp.ismIA64Only ∧ (Input.event untagged).presentsEvents = true ∧
    (∃ t, do1 (.event untagged) (ia32 (base eUnt eUnt)) = .next t) ∧
    ((ia32 (base eUnt eUnt)).pmc.get 0).ism = tp.ismIA64Only ∧ (ia32 (base eUnt eUnt)).psr.is = true :=
  ⟨rfl, rfl, ⟨_, rfl⟩, rfl, rfl⟩

theorem witness_FrozenRunsCountNothing :
    (frozen (base eUnt eUnt)).pmc0.fr = true ∧
    (∀ x ∈ [Input.event untagged, Input.interruption], x.writesFreeze = false ∧ x.writesCounter = false) ∧
    ∃ t, runInputs tp [.event untagged, .interruption] (frozen (base eUnt eUnt)) = .next t :=
  ⟨rfl, by decide, ⟨_, rfl⟩⟩

/-- `base` with monitor 5's mask that of level 3, so that at level 0 it does not admit the event it selects. -/
def twoOnOne : State :=
  { base eUnt eUnt with
    pmc := ⟨userMonitor eUnt, { userMonitor eUnt with plm := 8#4 }, idleMonitor, idleMonitor⟩ }

theorem witness_MonitorsCountTheirSelectedEvent :
    ((∃ t, do1 (.event untagged) (base eDs eUnt) = .next t) ∧ ((base eDs eUnt).pmc.get 0).es ≠ untagged.ev) ∧
    ((∃ t, do1 (.retire 1) (withOne eUnt eUnt (inFlight true true true)) = .next t) ∧
      ((withOne eUnt eUnt (inFlight true true true)).pmc.get 0).es ≠ tp.taggedRetired8 ∧
      ((withOne eUnt eUnt (inFlight true true true)).pmc.get 0).es ≠ tp.taggedRetired9) ∧
    (tp.eventClass untagged.ev = .untagged ∧ (∃ t, do1 (.event untagged) twoOnOne = .next t) ∧
      MonitorAdmits tp twoOnOne untagged.ev untagged.unit 0 ∧ (twoOnOne.pmc.get 1).es = untagged.ev ∧
      ¬ MonitorAdmits tp twoOnOne untagged.ev untagged.unit 1) :=
  ⟨⟨⟨_, rfl⟩, by decide⟩, ⟨⟨_, rfl⟩, by decide, by decide⟩, rfl, ⟨_, rfl⟩,
    ⟨rfl, rfl, rfl, fun _ => rfl, fun h => absurd h (by decide), rfl, rfl⟩, rfl,
    fun h => absurd h.level (by decide)⟩

theorem witness_Tag8QualifiesDownstreamEvents :
    (tp.eventClass downOf1.ev = .downstream ∧ downOf1.instr = some 1 ∧
      findId (withOne eDs eUnt (inFlight true false true)).inflight 1 = some (inFlight true false true) ∧
      (inFlight true false true).tag8 = some false ∧
      ∃ t, do1 (.event downOf1) (withOne eDs eUnt (inFlight true false true)) = .next t) ∧
    (tp.eventClass (memOf1 10).ev = .memory ∧
      ∃ t, do1 (.event (memOf1 10)) (withOne eMem eUnt (inFlight true false true)) = .next t) ∧
    tp.eventClass eUnt ≠ .tagged9 :=
  ⟨⟨rfl, rfl, rfl, rfl, ⟨_, rfl⟩⟩, ⟨rfl, ⟨_, rfl⟩⟩, by decide⟩

theorem witness_OnlyAnOverflowFreezesOrSignals :
    (∃ t, do1 (.event untagged) (base eUnt eUnt) = .next t ∧
      ∀ k, (base eUnt eUnt).pmd.get k + 1 = 2 ^ tp.CW → t.pmd.get k ≠ 0) ∧
    (Input.event untagged).writesFreeze = false ∧
    (∃ t, do1 .interruption { frozen (base eUnt eUnt) with overflowPending := true } = .next t) ∧
    Input.presentsEvents .interruption = false ∧ Input.writesFreeze .interruption = false ∧
    ({ frozen (base eUnt eUnt) with overflowPending := true } : State).pmc0.fr = true :=
  ⟨⟨_, rfl, by decide⟩, rfl, ⟨_, rfl⟩, rfl, rfl, rfl⟩

theorem witness_CountersChangeOnlyByCountingOrSoftware :
    (∃ t, do1 (.fetch 1 10) (base eUnt eUnt) = .next t) ∧ Input.presentsEvents (.fetch 1 10) = false ∧
    Input.writesCounter (.fetch 1 10) = false ∧ Input.writesFreeze (.fetch 1 10) = false :=
  ⟨⟨_, rfl⟩, rfl, rfl, rfl⟩

theorem witness_SystemEnableIsSetAtLevelZeroOnly :
    State.reset.psr.cpl = 0#2 ∧ (atLevel 1#2 State.reset).psr.cpl ≠ 0#2 ∧
    ∃ t, exec (.sum 4#24 0#6) State.reset = .next t :=
  ⟨rfl, by decide, ⟨_, rfl⟩⟩

theorem witness_SystemEnableHasThreeWriters :
    ({ userMonitor eUnt with pm := true } : PMCGeneric).pm = true ∧
    (∃ t, do1 (.setPSRpp true) State.reset = .next t ∧ t.psr.pp ≠ State.reset.psr.pp) ∧
    (∃ t, do1 (.restorePSR ⟨false, 3#2, false, true⟩) State.reset = .next t ∧ t.psr.pp ≠ State.reset.psr.pp) ∧
    ∃ t, do1 .interruption { atLevel 3#2 State.reset with dcr := { pp := true } } = .next t ∧
      t.psr.pp ≠ State.reset.psr.pp :=
  ⟨rfl, ⟨_, rfl, by decide⟩, ⟨_, rfl, by decide⟩, ⟨_, rfl, by decide⟩⟩

theorem witness_StatusFieldsHaveTheirWriters :
    (∃ t, do1 (.instr (.sum 4#24 0#6)) State.reset = .next t ∧ t.psr.up ≠ State.reset.psr.up) ∧
    (∃ t, do1 (.setCpl 3#2) State.reset = .next t ∧ t.psr.cpl ≠ State.reset.psr.cpl) ∧
    (∃ t, do1 .interruption (ia32 State.reset) = .next t ∧ t.psr.is ≠ (ia32 State.reset).psr.is) :=
  ⟨⟨_, rfl, by decide⟩, ⟨_, rfl, by decide⟩, ⟨_, rfl, by decide⟩⟩

theorem witness_PrivilegedOperationsAreRefusedAboveLevelZero :
    (atLevel 1#2 State.reset).psr.cpl ≠ 0#2 ∧ (atLevel 3#2 State.reset).psr.cpl ≠ 0#2 := by decide

theorem witness_WritePMCReplacesTheRegister :
    State.reset.psr.cpl = 0#2 ∧ ∀ k, tp.monitorIndex.get k ≠ 8 := by decide

theorem witness_WrittenCounterReadsBack :
    State.reset.psr.cpl = 0#2 ∧ 2 ^ 32 - 1 < 2 ^ tp.CW ∧ ¬ 2 ^ 32 < 2 ^ tp.CW ∧ ∀ k, tp.monitorIndex.get k ≠ 3 := by decide

theorem witness_RangeAndDefaultControlWrites : State.reset.psr.cpl = 0#2 := rfl

theorem witness_StatusWritesChangeOnlyTheirFields : State.reset.psr.cpl = 0#2 := rfl

theorem witness_OnlySoftwareUnfreezes :
    ∃ t, do1 (.writePMC (.pmc0 { fr := false, rest := ⟨0⟩ })) (frozen (base eUnt eUnt)) = .next t ∧
      (frozen (base eUnt eUnt)).pmc0.fr = true ∧ t.pmc0.fr = false :=
  ⟨_, rfl, rfl, rfl⟩

theorem witness_UserLevelCannotReconfigure :
    (atLevel 3#2 (base eUnt eUnt)).psr.cpl ≠ 0#2 ∧
    (∃ t, do1 (.setIs true) (atLevel 3#2 (base eUnt eUnt)) = .next t) ∧
    Input.setIs true ≠ .interruption ∧ Input.presentsEvents (.setIs true) = false :=
  ⟨by decide, ⟨_, rfl⟩, by decide, rfl⟩

theorem witness_DefaultControlIsCopiedAtDelivery :
    (∃ t, do1 .interruption State.reset = .next t) ∧
    ∃ t, do1 (.writeDCRpp true) State.reset = .next t ∧ t.dcr ≠ State.reset.dcr :=
  ⟨⟨_, rfl⟩, ⟨_, rfl, by decide⟩⟩

/-- `bothKinds` with the given `DCR.pp`; instruction 1 is in flight. -/
def handlers (pp : Bool) : State := { bothKinds with dcr := { pp := pp }, inflight := [(1, inFlight true true true)] }

/-- A handler's run with an event, a retirement, both instructions, changes of level and instruction set, a nested interruption,
a `SetPSRpp` and a `RestorePSR` of `pp` zero, and writes of the monitor that keep it system-level and of another counter. -/
def handlerRun : List Input :=
  [.event untagged, .retire 1, .instr (.sum 4#24 0#6), .instr (.rum 4#24 0#6), .setIs true, .interruption, .setPSRpp false,
    .restorePSR ⟨false, 0#2, true, false⟩, .writePMC (.pmc 5 { userMonitor eUnt with pm := true }), .writePMD 4 7,
    .writeDCRpp false, .event untagged, .setCpl 3#2]

theorem handlerRun_keeps_system_enable :
    Input.setPSRpp true ∉ handlerRun ∧ (∀ v, Input.restorePSR v ∈ handlerRun → v.pp = false) ∧
    (∀ v, Input.writePMC (.pmc (tp.monitorIndex.get 1) v) ∈ handlerRun → v.pm = true) ∧
    (∀ n, Input.writePMD (tp.monitorIndex.get 1) n ∉ handlerRun) ∧ Input.writeDCRpp true ∉ handlerRun := by
  refine ⟨by decide, fun v h => ?_, fun v h => ?_, fun n h => ?_, by decide⟩
  · simp [handlerRun] at h
    rw [h]
  · simp [handlerRun] at h
    rw [h.2]
  · simp [handlerRun, tp, Four.get] at h

/-- The other form: `DCR.pp` is set to one and no interruption follows. -/
theorem dcrRun_keeps_system_enable :
    Input.interruption ∉ [Input.writeDCRpp true, Input.event untagged] ∧
    ∃ t, runInputs tp (.interruption :: [.writeDCRpp true, .event untagged]) (handlers false) = .next t :=
  ⟨by decide, ⟨_, rfl⟩⟩

theorem witness_HandlerEventsFollowDefaultControl :
    ((handlers false).dcr.pp = false ∧ ((handlers false).pmc.get 1).pm = true ∧
      ∃ t, runInputs tp (.interruption :: handlerRun) (handlers false) = .next t) ∧
    ((handlers true).dcr.pp = true ∧ ((handlers true).pmc.get 1).plm.getLsbD 0 = true ∧
      tp.ismAllows ((handlers true).pmc.get 1).ism tp.isAfterInterruption = true ∧
      tp.unitMaskOK ((handlers true).pmc.get 1).umask ((handlers true).pmc.get 1).es none = true ∧
      (handlers true).pmc0.fr = false ∧ ∃ t, do1 .interruption (handlers true) = .next t) :=
  ⟨⟨rfl, rfl, ⟨_, rfl⟩⟩, rfl, rfl, rfl, rfl, rfl, ⟨_, rfl⟩⟩

/-- A record with only its first tag and one with only its second. -/
def onlyTag8 : InFlight := { fetched true with enc := some e1, tag8 := some true }
def onlyTag9 : InFlight := { fetched true with enc := some e1, tag9 := some true }

theorem witness_IllFormedInputsAreRefused :
    findId (withOne eDs eUnt (inFlight true true true)).inflight 1 = some (inFlight true true true) ∧
    (inFlight true true true).tag8.isSome = true ∧ findId State.reset.inflight 1 = none ∧ 2 ^ tp.AW ≤ 2 ^ 64 ∧
    findId (withOne eDs eUnt (fetched true)).inflight 1 = some (fetched true) ∧ (fetched true).tag8 = none ∧
    (fetched true).tag9 = none ∧ onlyTag8.tag9 = none ∧ onlyTag9.tag8 = none ∧ onlyTag9.tag9.isSome = true ∧
    findId (withOne eDs eUnt onlyTag8).inflight 1 = some onlyTag8 ∧
    findId (withOne eDs eUnt onlyTag9).inflight 1 = some onlyTag9 ∧
    (memOf1 (2 ^ 64 - 1)).daddr = some (2 ^ 64 - 1) ∧ 2 ^ 64 - 1 < 2 ^ tp.AW ∧ (memOf1 (2 ^ 64 - 1)).instr = some 1 ∧
    downOf1.daddr = none ∧ tpBoth.tag9AlsoNeedsTag8 = true ∧ tpBoth.eventClass eTag9 = .tagged9 ∧
    tp.eventClass eDs = .downstream ∧ tp.eventClass eTag8 = .tagged8 ∧ tp.eventClass eTag9 = .tagged9 ∧
    tp.eventClass eMem = .memory ∧ tp.eventClass eMem ≠ .untagged := by decide

/-- With the machine's own parameters, which nothing evaluates. -/
theorem witness_EveryStepKeepsTheInvariant :
    Inv Config.params { State.reset with inputs := [.setIs true] } ∧
    ∃ t, step { State.reset with inputs := [.setIs true] } = .next t :=
  ⟨⟨fun k => by fin_cases k <;> exact Nat.two_pow_pos _, rfl, fun _ _ h => nomatch h⟩, ⟨_, rfl⟩⟩

/-- Two states that differ in PMC[9] and in the tag it gave, with an event and a retirement to come. -/
theorem witness_Matcher9AffectsOnlyItsOwnEvent :
    SameButMatcher9 (withOne eUnt eTag8 (inFlight true true true))
      { withOne eUnt eTag8 (inFlight true true false) with pmc9 := matchV } ∧
    NoMonitorSelectsTagged9 tp (withOne eUnt eTag8 (inFlight true true true)) ∧
    (∀ x ∈ [Input.event untagged, Input.retire 1], x.selectsTagged9 tp = false) :=
  ⟨⟨rfl, .cons ⟨rfl, rfl, rfl⟩ .nil⟩, by unfold NoMonitorSelectsTagged9; decide, by decide⟩

end Sys2Proof.Tests
end

section
/-! PROOF. The invariant of the state: every operation keeps it, hence every step, and the state after reset meets it. -/

namespace Sys2Proof.Machine

variable {p : Params} {s t u : State}

/-! ## Steps that present events count each monitor at most once -/

/-- Two countings one after the other of monitors of which none is in both are one counting. -/
theorem CountedExactly.trans_disjoint {c d : Fin 4 → Prop} (h : CountedExactly p c s u) (g : CountedExactly p d u t)
    (disjoint : ∀ k, c k → ¬ d k) : CountedExactly p (fun k => c k ∨ d k) s t where
  counts k hk := by
    rcases hk with hc | hd
    · rw [g.keeps k (disjoint k hc), h.counts k hc]
    · rw [g.counts k hd, h.keeps k fun hc => disjoint k hc hd]
  keeps k hk := by
    rw [not_or] at hk
    rw [g.keeps k hk.2, h.keeps k hk.1]
  only := h.only.trans g.only
  no_overflow hn := by
    obtain ⟨hu, hup⟩ := h.no_overflow fun k hc => hn k (.inl hc)
    obtain ⟨ht, htp⟩ := g.no_overflow fun k hd => by
      rw [h.keeps k fun hc => disjoint k hc hd]
      exact hn k (.inr hd)
    exact ⟨ht.trans hu, htp.trans hup⟩

/-- A retirement removes the record and counts each monitor at most once: a monitor selects one of the two variants of the
retirement event at most (R66, R85). -/
theorem retireStep_counted {id : InstrId} (h : retireStep p id s = .next t) :
    ∃ c, CountedExactly p c (s.setInflight (removeId s.inflight id)) t := by
  obtain ⟨r, u, -, -, -, hu, ht⟩ := retireStep_next h
  obtain ⟨_, -, first⟩ := occur_next hu
  obtain ⟨_, -, second⟩ := occur_next ht
  refine ⟨_, first.trans_disjoint second ?_⟩
  rintro k ⟨-, admits8⟩ ⟨-, admits9⟩
  have selected9 := admits9.selected
  rw [first.only.pmc] at selected9
  exact p.taggedRetired_distinct (admits8.selected.symm.trans selected9)

theorem eventStep_counted {e : EventInput} (h : eventStep p e s = .next t) : ∃ c, CountedExactly p c s t := by
  obtain ⟨_, -, counted⟩ := occur_next (eventStep_next h).2
  exact ⟨_, counted⟩

/-- Whatever presents events counts each monitor at most once, apart from the record that a retirement removes. -/
theorem presentsEvents_counted {x : Input} (hx : x.presentsEvents = true) (h : applyInput p x s = .next t) :
    ∃ m c, CountedExactly p c (s.setInflight m) t := by
  cases x with
  | retire id => exact ⟨_, retireStep_counted h⟩
  | event e => exact ⟨s.inflight, eventStep_counted h⟩
  | _ => cases hx

/-! ## What keeps the invariant -/

/-- The invariant looks at the counters and the in-flight map only. -/
theorem Inv.congr (hs : Inv p s) (hpmd : t.pmd = s.pmd) (hinflight : t.inflight = s.inflight) : Inv p t where
  counters_fit := hpmd ▸ hs.counters_fit
  ids_rising := hinflight ▸ hs.ids_rising
  records_ok := hinflight ▸ hs.records_ok

theorem Inv.putId (hs : Inv p s) (id : InstrId) {r : InFlight} (hr : RecordOK p r) :
    Inv p (s.setInflight (putId s.inflight id r)) where
  counters_fit := hs.counters_fit
  ids_rising := wf_putId hs.ids_rising id r
  records_ok j q hq := by
    rw [State.setInflight_inflight] at hq
    by_cases hj : j = id
    · subst hj
      rw [findId_putId_same, Option.some.injEq] at hq
      exact hq ▸ hr
    · rw [findId_putId_other _ _ hj] at hq
      exact hs.records_ok j q hq

theorem Inv.removeId (hs : Inv p s) (id : InstrId) : Inv p (s.setInflight (removeId s.inflight id)) where
  counters_fit := hs.counters_fit
  ids_rising := wf_removeId hs.ids_rising id
  records_ok j q hq := by
    rw [State.setInflight_inflight] at hq
    by_cases hj : j = id
    · subst hj
      rw [findId_removeId_same] at hq
      cases hq
    · rw [findId_removeId_other _ hj] at hq
      exact hs.records_ok j q hq

theorem Inv.setCounter (hs : Inv p s) (k : Fin 4) {v : Nat} (hv : v < 2 ^ p.CW) : Inv p (s.setCounter k v) where
  counters_fit j := by
    rw [State.setCounter_pmd, Four.get_set]
    split
    · exact hv
    · exact hs.counters_fit j
  ids_rising := hs.ids_rising
  records_ok := hs.records_ok

theorem Inv.addDraws (hs : Inv p s) (n : Nat) : Inv p (s.addDraws n) := hs.congr rfl rfl

/-- Counting is modulo `2^CW` (R87). -/
theorem Inv.counted {c : Fin 4 → Prop} (hs : Inv p s) (h : CountedExactly p c s t) : Inv p t where
  counters_fit k := by
    by_cases hk : c k
    · rw [h.counts k hk]
      exact Nat.mod_lt _ (Nat.two_pow_pos _)
    · rw [h.keeps k hk]
      exact hs.counters_fit k
  ids_rising := h.only.inflight ▸ hs.ids_rising
  records_ok := h.only.inflight ▸ hs.records_ok

theorem fetchStep_keeps_inv {id : InstrId} {ip : Addr} (hs : Inv p s) (h : fetchStep p id ip s = .next t) :
    Inv p t := by
  unfold fetchStep at h
  split at h
  · cases h
  split at h
  · cases h
  · next fits =>
    have hr (b : Bool) : RecordOK p { ip := ip, enc := none, ibrTag := b, tag8 := none, tag9 := none } :=
      ⟨not_le.1 fits, rfl, rfl⟩
    split at h <;> cases h
    · exact (hs.putId id (hr _)).addDraws 1
    · exact hs.putId id (hr _)

theorem issueStep_keeps_inv {id : InstrId} {enc : Enc} (hs : Inv p s) (h : issueStep p id enc s = .next t) :
    Inv p t := by
  unfold issueStep at h
  split at h
  · cases h
  · next r found =>
    have hr (a b : Bool) : RecordOK p { r with enc := some enc, tag8 := some a, tag9 := some b } :=
      ⟨(hs.records_ok id r found).1, rfl, rfl⟩
    split at h
    · cases h
    split at h <;> cases h
    · exact (hs.putId id (hr _ _)).addDraws 2
    · exact hs.putId id (hr _ _)

theorem flushStep_keeps_inv {id : InstrId} (hs : Inv p s) (h : flushStep id s = .next t) : Inv p t := by
  unfold flushStep at h
  split at h <;> cases h
  exact hs.removeId id

theorem PrivilegedWrite.keeps_inv {x : Input} (hs : Inv p s) (h : PrivilegedWrite p s x t) : Inv p t := by
  cases h with
  | pmd i k v hk hv => exact hs.setCounter k hv
  | _ => exact hs.congr rfl rfl

/-- An input that is no step of the pipeline writes a counter with a value that fits, or neither a counter nor the in-flight
map. -/
theorem QuietNext.keeps_inv {x : Input} (hx : x.isPipeline = false) (hs : Inv p s) (h : QuietNext p s x t) :
    Inv p t := by
  cases h with
  | instruction _ _ _ ht => rw [ht]; exact hs.congr rfl rfl
  | pipeline _ _ hp _ => rw [hx] at hp; cases hp
  | privileged _ _ _ hw => exact hw.keeps_inv hs
  | _ => exact hs.congr rfl rfl

/-- Every step keeps the invariant, whatever the parameters are. -/
theorem applyInput_keeps_inv {x : Input} (hs : Inv p s) (h : applyInput p x s = .next t) : Inv p t := by
  cases x with
  | fetch id ip => exact fetchStep_keeps_inv hs h
  | issue id enc => exact issueStep_keeps_inv hs h
  | flush id => exact flushStep_keeps_inv hs h
  | retire id =>
    obtain ⟨_, counted⟩ := retireStep_counted h
    exact (hs.removeId id).counted counted
  | event e =>
    obtain ⟨_, counted⟩ := eventStep_counted h
    exact hs.counted counted
  | _ => exact (applyInput_quiet rfl h).keeps_inv rfl hs

/-! ## Every step -/

/-- A step performs the oldest input on the state without it. -/
theorem stepWith_next (h : stepWith p s = .next t) :
    ∃ x rest, s.inputs = x :: rest ∧ applyInput p x { s with inputs := rest } = .next t := by
  unfold stepWith at h
  split at h
  · cases h
  · next x rest hi => exact ⟨x, rest, hi, h⟩

/-- Settles O48: the invariant does not look at the inputs, and performing any of them keeps it. -/
theorem everyStepKeepsTheInvariant : Obligations.EveryStepKeepsTheInvariant := by
  intro s t hs h
  obtain ⟨x, rest, -, happly⟩ := stepWith_next h
  exact applyInput_keeps_inv (s := { s with inputs := rest }) (hs.congr rfl rfl) happly

/-! ## Reset -/

theorem reset_pmd_get (k : Fin 4) : State.reset.pmd.get k = 0 := by
  fin_cases k <;> rfl

/-- Settles O49: every counter is zero, which has `CW` bits for every `CW`, and the in-flight map is empty. -/
theorem resetMeetsTheInvariant : Obligations.ResetMeetsTheInvariant := by
  refine ⟨⟨fun k => ?_, rfl, fun _ _ found => nomatch found⟩, rfl, rfl⟩
  rw [reset_pmd_get]
  exact Nat.two_pow_pos _

end Sys2Proof.Machine
end

section
/-! PROOF. Who writes the counters, the freeze bit, `overflowPending`, `PSR.pp` and DCR, read off from the lists of all that a
step can do. -/

namespace Sys2Proof.Machine

variable {p : Params} {s t : State}

/-! ## Counters, the freeze bit and `overflowPending` -/

/-- Without events, counters and PMC[0] have their software writers, and `overflowPending` has none. -/
theorem QuietNext.overflow_state {x : Input} (h : QuietNext p s x t) :
    (x.writesCounter = false → t.pmd = s.pmd) ∧ (x.writesFreeze = false → t.pmc0 = s.pmc0) ∧
    t.overflowPending = s.overflowPending := by
  cases h with
  | instruction _ _ _ ht => rw [ht]; exact ⟨fun _ => rfl, fun _ => rfl, rfl⟩
  | pipeline _ _ _ ht => rw [ht]; exact ⟨fun _ => rfl, fun _ => rfl, rfl⟩
  | privileged _ _ _ hw =>
    cases hw with
    | pmc0 v => exact ⟨fun _ => rfl, nofun, rfl⟩
    | pmd i k v hk hv => exact ⟨nofun, fun _ => rfl, rfl⟩
    | _ => exact ⟨fun _ => rfl, fun _ => rfl, rfl⟩
  | _ => exact ⟨fun _ => rfl, fun _ => rfl, rfl⟩

/-- Settles O33, by the list of all that an input without events can do. -/
theorem countersChangeOnlyByCountingOrSoftware : Obligations.CountersChangeOnlyByCountingOrSoftware :=
  fun _ _ _ _ h hx => (applyInput_quiet hx h).overflow_state

/-- A monitor that counted from its last value has become zero, so counting in which none has leaves the freeze bit and
`overflowPending` (R87, R88). -/
theorem CountedExactly.no_overflow_of_no_wrap {c : Fin 4 → Prop} (h : CountedExactly p c s t)
    (hn : ∀ k, s.pmd.get k + 1 = 2 ^ p.CW → t.pmd.get k ≠ 0) :
    t.pmc0 = s.pmc0 ∧ t.overflowPending = s.overflowPending :=
  h.no_overflow fun k hk last => hn k last (by rw [h.counts k hk, last, Nat.mod_self])

/-- Settles O31: without events nothing but software writes the freeze bit; with events each monitor counts at most once, so
that an overflow leaves its counter at zero at the end of the step. -/
theorem onlyAnOverflowFreezesOrSignals : Obligations.OnlyAnOverflowFreezesOrSignals := by
  intro p x s t h hw
  cases hx : x.presentsEvents with
  | false =>
    obtain ⟨-, hfreeze, hpending⟩ := (applyInput_quiet hx h).overflow_state
    rw [hfreeze hw, hpending]
    exact ⟨id, id, fun _ => ⟨rfl, rfl⟩⟩
  | true =>
    obtain ⟨m, c, counted⟩ := presentsEvents_counted hx h
    refine ⟨counted.only.freeze_kept, counted.only.pending_kept, fun hn => ?_⟩
    obtain ⟨hfreeze, hpending⟩ := counted.no_overflow_of_no_wrap (hn.resolve_left nofun)
    exact ⟨congrArg PMC0.fr hfreeze, hpending⟩

/-! ## `PSR.pp` and DCR -/

theorem enableOK_system {m : PMCGeneric} (hm : m.pm = true) (psr : PSR) : enableOK m psr = psr.pp := if_pos hm

/-- Counting and retirement leave PSR and DCR. -/
theorem presentsEvents_psr_dcr {x : Input} (hx : x.presentsEvents = true) (h : applyInput p x s = .next t) :
    t.psr = s.psr ∧ t.dcr = s.dcr := by
  obtain ⟨m, only⟩ := presentsEvents_only hx h
  exact ⟨only.psr, only.dcr⟩

/-- The writers of `PSR.pp` among the inputs that present no events (R14). -/
theorem QuietNext.systemEnable_writers {x : Input} (h : QuietNext p s x t) (hpp : t.psr.pp ≠ s.psr.pp) :
    ((∃ v, x = .setPSRpp v ∧ t.psr.pp = v) ∨ (∃ v, x = .restorePSR v ∧ t.psr.pp = v.pp)) ∧ s.psr.cpl = 0#2 ∨
      x = .interruption ∧ t.psr.pp = s.dcr.pp := by
  cases h with
  | instruction _ _ _ ht => exact absurd (by rw [ht]) hpp
  | pipeline _ _ _ ht => exact absurd (by rw [ht]) hpp
  | interruption => exact .inr ⟨rfl, rfl⟩
  | privileged _ _ h0 hw =>
    cases hw with
    | setPSRpp v => exact .inl ⟨.inl ⟨v, rfl, rfl⟩, h0⟩
    | restorePSR v => exact .inl ⟨.inr ⟨v, rfl, rfl⟩, h0⟩
    | _ => exact absurd rfl hpp
  | _ => exact absurd rfl hpp

/-- Settles O35: events leave PSR, and the other inputs have the writers R14 names. -/
theorem systemEnableHasThreeWriters : Obligations.SystemEnableHasThreeWriters := by
  refine ⟨fun m psr hm => by rw [enableOK_system hm], fun p x s t h hpp => ?_⟩
  cases hx : x.presentsEvents with
  | false => exact (applyInput_quiet hx h).systemEnable_writers hpp
  | true => exact absurd (by rw [(presentsEvents_psr_dcr hx h).1]) hpp

/-- The one writer of DCR among the inputs that present no events (R15, R107). -/
theorem QuietNext.defaultControl_writer {x : Input} (h : QuietNext p s x t) (hdcr : t.dcr ≠ s.dcr) :
    ∃ v, x = .writeDCRpp v ∧ t.dcr.pp = v := by
  cases h with
  | instruction _ _ _ ht => exact absurd (by rw [ht]) hdcr
  | pipeline _ _ _ ht => exact absurd (by rw [ht]) hdcr
  | privileged _ _ _ hw =>
    cases hw with
    | dcrpp v => exact ⟨v, rfl, rfl⟩
    | _ => exact absurd rfl hdcr
  | _ => exact absurd rfl hdcr

theorem interruption_next (h : applyInput p .interruption s = .next t) : t = takeInterruption p s := by
  cases h
  rfl

@[simp] theorem takeInterruption_pp (p : Params) (s : State) : (takeInterruption p s).psr.pp = s.dcr.pp := rfl

@[simp] theorem takeInterruption_dcr (p : Params) (s : State) : (takeInterruption p s).dcr = s.dcr := rfl

/-- Settles O45: delivery copies `DCR.pp`, events leave DCR, and of the other inputs `WriteDCRpp` alone writes it. -/
theorem defaultControlIsCopiedAtDelivery : Obligations.DefaultControlIsCopiedAtDelivery := by
  refine ⟨fun p s t h => by simp [interruption_next h], fun p x s t h hdcr => ?_⟩
  cases hx : x.presentsEvents with
  | false => exact (applyInput_quiet hx h).defaultControl_writer hdcr
  | true => exact absurd (presentsEvents_psr_dcr hx h).2 hdcr

end Sys2Proof.Machine
end

section
/-! PROOF. Two states that differ in `overflowPending` only: every step answers alike from them (R33, R121, log 8). -/

namespace Sys2Proof.Machine

variable {p : Params} {s t : State}

def State.setPending (s : State) (b : Bool) : State := { s with overflowPending := b }

@[simp] theorem State.setPending_inflight (b : Bool) : (s.setPending b).inflight = s.inflight := rfl

@[simp] theorem tagOK_setPending (b : Bool) (o : Occurrence) : tagOK p (s.setPending b) o = tagOK p s o := rfl

/-- The same state but for `overflowPending`. -/
def SameButPending (s t : State) : Prop := t = s.setPending t.overflowPending

theorem sameButPending_iff : SameButPending s t ↔ ∃ b, t = s.setPending b :=
  ⟨fun h => ⟨_, h⟩, fun ⟨_, h⟩ => h ▸ rfl⟩

theorem sameButPending_setPending (s : State) (b : Bool) : SameButPending s (s.setPending b) := rfl

/-- Two answers alike are two related next states, the same fault or the same refusal. -/
theorem SameAnswer.next_or_stop {rel : State → State → Prop} {a a' : Result} (h : SameAnswer rel a a') :
    (∃ s t, a = .next s ∧ a' = .next t ∧ rel s t) ∨ (∃ f, a = .fault f ∧ a' = .fault f) ∨
      (∃ r, a = .refused r ∧ a' = .refused r) := by
  cases a <;> cases a'
  case next.next s t => exact .inl ⟨s, t, rfl, rfl, h⟩
  case fault.fault f _ => exact .inr (.inl ⟨f, rfl, congrArg _ (Eq.symm h)⟩)
  case refused.refused r _ => exact .inr (.inr ⟨r, rfl, congrArg _ (Eq.symm h)⟩)
  all_goals exact h.elim

/-- A relation holds of two conditionals on one condition if it holds of both branches. -/
theorem rel_ite {α β : Type} {R : α → β → Prop} {c : Prop} [Decidable c] {a b : α} {a' b' : β} (hthen : R a a')
    (helse : R b b') : R (if c then a else b) (if c then a' else b') := by
  split
  · exact hthen
  · exact helse

theorem SameButPending.markOverflow (h : SameButPending s t) : SameButPending (markOverflow s) (markOverflow t) := by
  obtain ⟨b, rfl⟩ := sameButPending_iff.1 h
  rfl

theorem SameButPending.countMonitor (h : SameButPending s t) (k : Fin 4) :
    SameButPending (countMonitor p k s) (countMonitor p k t) := by
  obtain ⟨b, rfl⟩ := sameButPending_iff.1 h
  exact rel_ite (sameButPending_setPending (s.setCounter k _) b).markOverflow rfl

theorem SameButPending.countIf (h : SameButPending s t) (q : Four Bool) (k : Fin 4) :
    SameButPending (countIf p q k s) (countIf p q k t) :=
  rel_ite (h.countMonitor k) h

theorem SameButPending.countAll (h : SameButPending s t) (q : Four Bool) :
    SameButPending (countAll p q s) (countAll p q t) :=
  (((h.countIf q 0).countIf q 1).countIf q 2).countIf q 3

theorem SameButPending.occur (h : SameButPending s t) (o : Occurrence) :
    SameAnswer SameButPending (occur p o s) (occur p o t) := by
  obtain ⟨b, rfl⟩ := sameButPending_iff.1 h
  unfold Machine.occur
  rw [tagOK_setPending]
  cases tagOK p s o with
  | none => exact rfl
  | some tag => exact (sameButPending_setPending (s.addDraws _) b).countAll _

theorem eventStep_setPending (e : EventInput) (b : Bool) :
    SameAnswer SameButPending (eventStep p e s) (eventStep p e (s.setPending b)) := by
  refine rel_ite rfl ?_
  rw [State.setPending_inflight]
  cases e.instr with
  | none => exact (sameButPending_setPending s b).occur _
  | some id =>
    dsimp only
    cases findId s.inflight id with
    | none => exact rfl
    | some r => exact (sameButPending_setPending s b).occur _

theorem retireStep_setPending (id : InstrId) (b : Bool) :
    SameAnswer SameButPending (retireStep p id s) (retireStep p id (s.setPending b)) := by
  unfold retireStep
  rw [State.setPending_inflight]
  cases findId s.inflight id with
  | none => exact rfl
  | some r =>
    refine rel_ite ?_ rfl
    have first : SameAnswer SameButPending
        (occur p (retirementOccurrence p.taggedRetired8 r) (s.setInflight (removeId s.inflight id)))
        (occur p (retirementOccurrence p.taggedRetired8 r) ((s.setPending b).setInflight (removeId s.inflight id))) :=
      (sameButPending_setPending _ b).occur _
    rcases first.next_or_stop with ⟨u, v, hu, hv, huv⟩ | ⟨f, hf, hg⟩ | ⟨x, hx, hy⟩
    · rw [hu, hv]
      exact huv.occur _
    · rw [hf, hg]
      exact rfl
    · rw [hx, hy]
      exact rfl

theorem exec_setPending (i : Instr) (b : Bool) :
    SameAnswer SameButPending (exec i s) (exec i (s.setPending b)) := by
  cases i <;> exact rel_ite (rel_ite rfl rfl) rfl

theorem underIA64_runDecoded_setPending (d : Except DecodeReject Instr) (b : Bool) :
    SameAnswer SameButPending (underIA64 s (runDecoded d s))
      (underIA64 (s.setPending b) (runDecoded d (s.setPending b))) := by
  refine rel_ite rfl ?_
  cases d with
  | ok i => exact exec_setPending i b
  | error r => exact rfl

theorem fetchStep_setPending (id : InstrId) (ip : Addr) (b : Bool) :
    SameAnswer SameButPending (fetchStep p id ip s) (fetchStep p id ip (s.setPending b)) :=
  rel_ite rfl (rel_ite rfl (rel_ite rfl rfl))

theorem issueStep_setPending (id : InstrId) (enc : Enc) (b : Bool) :
    SameAnswer SameButPending (issueStep p id enc s) (issueStep p id enc (s.setPending b)) := by
  unfold issueStep
  rw [State.setPending_inflight]
  cases findId s.inflight id with
  | none => exact rfl
  | some r => exact rel_ite rfl (rel_ite rfl rfl)

theorem flushStep_setPending (id : InstrId) (b : Bool) :
    SameAnswer SameButPending (flushStep id s) (flushStep id (s.setPending b)) := by
  unfold flushStep
  rw [State.setPending_inflight]
  cases findId s.inflight id <;> exact rfl

theorem privileged_setPending {act act' : Result} (b : Bool) (h : SameAnswer SameButPending act act') :
    SameAnswer SameButPending (privileged s act) (privileged (s.setPending b) act') :=
  rel_ite h rfl

theorem writePMCStep_setPending (w : PMCWrite) (b : Bool) :
    SameAnswer SameButPending (writePMCStep p w s) (writePMCStep p w (s.setPending b)) := by
  refine privileged_setPending b ?_
  cases w with
  | pmc i v =>
    dsimp only
    cases p.monitorAt i <;> exact rfl
  | _ => exact rfl

theorem writePMDStep_setPending (i v : Nat) (b : Bool) :
    SameAnswer SameButPending (writePMDStep p i v s) (writePMDStep p i v (s.setPending b)) := by
  refine privileged_setPending b ?_
  cases p.monitorAt i with
  | none => exact rfl
  | some k => exact rel_ite rfl rfl

theorem applyInput_setPending (x : Input) (b : Bool) :
    SameAnswer SameButPending (applyInput p x s) (applyInput p x (s.setPending b)) := by
  cases x with
  | slot unit bits => exact underIA64_runDecoded_setPending _ b
  | bundle bytes n => exact underIA64_runDecoded_setPending _ b
  | instr i => exact exec_setPending i b
  | fetch id ip => exact fetchStep_setPending id ip b
  | issue id enc => exact issueStep_setPending id enc b
  | retire id => exact retireStep_setPending id b
  | flush id => exact flushStep_setPending id b
  | event e => exact eventStep_setPending e b
  | writePMC w => exact writePMCStep_setPending w b
  | writePMD i v => exact writePMDStep_setPending i v b
  | setPSRpp v => exact privileged_setPending b rfl
  | writeIBR v => exact privileged_setPending b rfl
  | writeDBR v => exact privileged_setPending b rfl
  | writeDCRpp v => exact privileged_setPending b rfl
  | restorePSR v => exact privileged_setPending b rfl
  | setCpl v => exact rfl
  | setIs v => exact rfl
  | interruption => exact rfl

/-- Settles O32, by the case of each input. -/
theorem overflowPendingIsNeverRead : Obligations.OverflowPendingIsNeverRead :=
  fun _ x _ b => applyInput_setPending x b

end Sys2Proof.Machine
end

section
/-! PROOF. Which inputs the pipeline steps and `Event` refuse, each by its name. -/

namespace Sys2Proof.Machine

variable {p : Params} {s : State} {id : InstrId} {r : InFlight} {o : Occurrence} {e : EventInput}

/-! ## `Fetch`, `Issue`, `Flush` and `Retire` -/

theorem fetchStep_of_found (hf : findId s.inflight id = some r) (ip : Addr) :
    fetchStep p id ip s = .refused .idInUse := by
  simp [fetchStep, hf]

theorem fetchStep_of_wide {ip : Addr} (hf : findId s.inflight id = none) (wide : 2 ^ p.AW ≤ ip) :
    fetchStep p id ip s = .refused .addressTooWide := by
  simp [fetchStep, hf, wide]

theorem issueStep_of_unknown (hf : findId s.inflight id = none) (enc : Enc) :
    issueStep p id enc s = .refused .idUnknown := by
  simp [issueStep, hf]

theorem issueStep_of_issued (hf : findId s.inflight id = some r) (issued : r.tag8.isSome = true) (enc : Enc) :
    issueStep p id enc s = .refused .alreadyIssued := by
  simp [issueStep, hf, issued]

theorem flushStep_of_unknown (hf : findId s.inflight id = none) : flushStep id s = .refused .idUnknown := by
  simp [flushStep, hf]

theorem retireStep_of_unknown (hf : findId s.inflight id = none) : retireStep p id s = .refused .idUnknown := by
  simp [retireStep, hf]

theorem retireStep_of_untagged (hf : findId s.inflight id = some r) (missing : r.tag8 = none ∨ r.tag9 = none) :
    retireStep p id s = .refused .notIssued := by
  rcases missing with h | h <;> simp [retireStep, hf, h]

/-! ## When the tag check of an occurrence has no answer (R73, D9) -/

theorem tagOK_eq_tag8 (hc : p.eventClass o.ev = .downstream ∨ p.eventClass o.ev = .tagged8) :
    tagOK p s o = o.tag8 := by
  rcases hc with hc | hc <;> simp only [tagOK, hc]

theorem tagOK_tagged9_eq_none_iff (hc : p.eventClass o.ev = .tagged9) :
    tagOK p s o = none ↔ o.tag9 = none ∨ (p.tag9AlsoNeedsTag8 = true ∧ o.tag8 = none) := by
  simp only [tagOK, hc]
  cases p.tag9AlsoNeedsTag8 with
  | false => simp
  | true => cases o.tag8 <;> cases o.tag9 <;> simp

theorem tagOK_memory_eq_none_iff (hc : p.eventClass o.ev = .memory) :
    tagOK p s o = none ↔ o.tag8 = none ∨ o.daddr = none := by
  simp only [tagOK, hc]
  cases o.tag8 <;> cases o.daddr <;> simp

/-- Every class but the untagged one needs a tag, which only an instruction has. -/
theorem tagOK_of_no_instr (hi : o.instr = none) (hc : p.eventClass o.ev ≠ .untagged) : tagOK p s o = none := by
  have no_tag8 : o.tag8 = none := by rw [Occurrence.tag8, hi, Option.bind_none]
  have no_tag9 : o.tag9 = none := by rw [Occurrence.tag9, hi, Option.bind_none]
  cases h : p.eventClass o.ev with
  | tagged8 => exact (tagOK_eq_tag8 (.inr h)).trans no_tag8
  | tagged9 => exact (tagOK_tagged9_eq_none_iff h).2 (.inl no_tag9)
  | downstream => exact (tagOK_eq_tag8 (.inl h)).trans no_tag8
  | memory => exact (tagOK_memory_eq_none_iff h).2 (.inl no_tag8)
  | untagged => exact absurd h hc

theorem tagOK_of_no_tag8 (ht : o.tag8 = none)
    (hc : p.eventClass o.ev = .downstream ∨ p.eventClass o.ev = .tagged8 ∨ p.eventClass o.ev = .memory) :
    tagOK p s o = none := by
  rcases hc with h | h | h
  · exact (tagOK_eq_tag8 (.inl h)).trans ht
  · exact (tagOK_eq_tag8 (.inr h)).trans ht
  · exact (tagOK_memory_eq_none_iff h).2 (.inl ht)

/-! ## `Event` -/

/-- An event that names an instruction in flight is refused where the tag check of its occurrence has no answer. -/
theorem eventStep_of_illFormed (hd : ∀ a, e.daddr = some a → a < 2 ^ p.AW) (hi : e.instr = some id)
    (hf : findId s.inflight id = some r)
    (h : tagOK p s { ev := e.ev, instr := some r, daddr := e.daddr, unit := e.unit } = none) :
    eventStep p e s = .refused .illFormedOccurrence :=
  (eventStep_of_found hd hi hf).trans (occur_refused h)

theorem eventStep_of_no_instr (hd : ∀ a, e.daddr = some a → a < 2 ^ p.AW) (hi : e.instr = none)
    (hc : p.eventClass e.ev ≠ .untagged) : eventStep p e s = .refused .illFormedOccurrence :=
  (eventStep_of_none hd hi).trans (occur_refused (tagOK_of_no_instr rfl hc))

/-- Settles O47, clause by clause: the refusals of the pipeline steps and of `Event`, the ill-formed occurrences by the cases in
which the tag check of their class has no answer. -/
theorem illFormedInputsAreRefused : Obligations.IllFormedInputsAreRefused := by
  intro p s id
  refine ⟨fun ip r hf => fetchStep_of_found hf ip, fun ip hf wide => fetchStep_of_wide hf wide,
    fun enc hf => issueStep_of_unknown hf enc, fun hf => retireStep_of_unknown hf, fun hf => flushStep_of_unknown hf,
    fun enc r hf issued => issueStep_of_issued hf issued enc, fun r hf missing => retireStep_of_untagged hf missing,
    fun e a hd wide => eventStep_of_wide hd wide, fun e hd => ⟨fun hi hf => eventStep_of_unknown hd hi hf,
    fun hi hc => eventStep_of_no_instr hd hi hc, fun r hi hf => ⟨?_, ?_, ?_⟩⟩⟩
  · exact fun no_tag8 hc => eventStep_of_illFormed hd hi hf (tagOK_of_no_tag8 no_tag8 hc)
  · exact fun hc missing => eventStep_of_illFormed hd hi hf ((tagOK_tagged9_eq_none_iff hc).2 missing)
  · exact fun hc no_daddr => eventStep_of_illFormed hd hi hf ((tagOK_memory_eq_none_iff hc).2 (.inr no_daddr))

end Sys2Proof.Machine
end

section
/-! PROOF. Which of the two opcode matchers' tags qualifies which events (R67, R73). -/

namespace Sys2Proof.Machine

variable {p : Params} {s t : State} {o o' : Occurrence} {e : EventInput} {id : InstrId} {r : InFlight}

/-- Counting in which no monitor counts leaves every counter. -/
theorem CountedExactly.pmd_eq_of_none {c : Fin 4 → Prop} (h : CountedExactly p c s t) (hn : ∀ k, ¬ c k) :
    t.pmd = s.pmd :=
  Four.ext_get fun k => h.keeps k (hn k)

/-- A memory event passes its tag check only with `Tag(PMC[8])` (R68, R73). -/
theorem tag8_of_tagOK_memory (hc : p.eventClass o.ev = .memory) (h : tagOK p s o = some true) :
    o.tag8 = some true := by
  simp only [tagOK, hc] at h
  split at h
  · next a _ ha _ =>
    have a_holds : a = true := (Bool.and_eq_true_iff.1 (Option.some.inj h)).1
    rw [ha, a_holds]
  · cases h

/-- A down-stream event passes its tag check only with `Tag(PMC[8])`, whether or not it accesses memory (R67, R73). -/
theorem tag8_of_tagOK (hc : p.eventClass o.ev = .downstream ∨ p.eventClass o.ev = .memory)
    (h : tagOK p s o = some true) : o.tag8 = some true := by
  rcases hc with hc | hc
  · exact (tagOK_eq_tag8 (.inl hc)).symm.trans h
  · exact tag8_of_tagOK_memory hc h

theorem eventStep_keeps_pmd_of_tag8_false
    (hc : p.eventClass e.ev = .downstream ∨ p.eventClass e.ev = .memory) (hi : e.instr = some id)
    (hf : findId s.inflight id = some r) (hr : r.tag8 = some false) (h : eventStep p e s = .next t) :
    t.pmd = s.pmd := by
  obtain ⟨tag, htag, counted⟩ := occur_next (eventStep_next h).2
  refine counted.pmd_eq_of_none ?_
  rintro k ⟨rfl, -⟩
  have tag8_true := tag8_of_tagOK hc htag
  simp [Occurrence.tag8, hi, hf, hr] at tag8_true

/-- But for the variant of the retirement event that PMC[9] qualifies, the tag check sees of the instruction its first tag
only (R67, R73). -/
theorem tagOK_congr_tag8 (hev : o'.ev = o.ev) (htag8 : o'.tag8 = o.tag8) (hdaddr : o'.daddr = o.daddr)
    (hc : p.eventClass o.ev ≠ .tagged9) : tagOK p s o' = tagOK p s o := by
  unfold tagOK
  rw [hev, htag8, hdaddr]
  cases hcase : p.eventClass o.ev with
  | tagged9 => exact absurd hcase hc
  | _ => rfl

/-- Settles O30: without `Tag(PMC[8])` no monitor counts a down-stream event, and outside class tagged9 the tag check does not
look at the second tag. -/
theorem tag8QualifiesDownstreamEvents : Obligations.Tag8QualifiesDownstreamEvents :=
  ⟨fun _ _ _ _ _ _ hc hi hf hr h => eventStep_keeps_pmd_of_tag8_false hc hi hf hr h,
    fun _ _ _ _ _ hc => tagOK_congr_tag8 rfl rfl rfl hc⟩

end Sys2Proof.Machine
end

section
/-! PROOF. The privilege level mask and the instruction set mask of a monitor: each alone can keep it from counting (R81, R83). -/

namespace Sys2Proof.Machine

variable {p : Params} {s t : State} {m : PMCGeneric} {psr : PSR}

/-! ## The privilege level mask -/

theorem plmOK_iff (m : PMCGeneric) (psr : PSR) : plmOK m psr = true ↔ m.plm.getLsbD psr.cpl.toNat = true := Iff.rfl

theorem plmOK_of_no_level (hm : m.plm = 0#4) (psr : PSR) : plmOK m psr = false := by
  rw [plmOK, hm, BitVec.getLsbD_zero]

/-- The mask has a bit for each of the four levels. -/
theorem plmOK_of_every_level (hm : m.plm = 15#4) (psr : PSR) : plmOK m psr = true := by
  have every_bit : m.plm = BitVec.allOnes 4 := hm
  rw [plmOK, every_bit, BitVec.getLsbD_allOnes]
  exact decide_eq_true psr.cpl.isLt

/-- The level of a step that presents events is that of the state before it, also for the second event of a retirement (R81). -/
theorem presentsEvents_keeps_of_plmOK {x : Input} {k : Fin 4} (hx : x.presentsEvents = true)
    (h : applyInput p x s = .next t) (hk : plmOK (s.pmc.get k) s.psr = false) : t.pmd.get k = s.pmd.get k := by
  refine presentsEvents_keeps hx h fun u ev un hpsr hpmc _ admits => ?_
  have passes := (plmOK_iff _ _).2 admits.level
  rw [hpsr, hpmc, hk] at passes
  cases passes

/-- Settles O24: the check is the mask's bit for the level, and a monitor without it admits no event. -/
theorem levelMaskGatesCounting : Obligations.LevelMaskGatesCounting :=
  ⟨plmOK_iff, fun _ psr => ⟨fun hm => plmOK_of_no_level hm psr, fun hm => plmOK_of_every_level hm psr⟩,
    fun _ _ _ _ _ hx h hk => presentsEvents_keeps_of_plmOK hx h hk⟩

/-! ## The instruction set mask -/

theorem ismOK_ia64Only_of_ia64 (hm : m.ism = p.ismIA64Only) (his : psr.is = false) : ismOK p m psr = true := by
  rw [ismOK, hm, his, p.ismAllows_ia64Only_ia64]

theorem ismOK_ia64Only_of_ia32 (hm : m.ism = p.ismIA64Only) (his : psr.is = true) : ismOK p m psr = false := by
  rw [ismOK, hm, his, p.ismAllows_ia64Only_ia32]

/-- The instruction set of a step that presents events is that of the state before it (R83). -/
theorem presentsEvents_keeps_of_ismOK {x : Input} {k : Fin 4} (hx : x.presentsEvents = true)
    (h : applyInput p x s = .next t) (hk : ismOK p (s.pmc.get k) s.psr = false) : t.pmd.get k = s.pmd.get k := by
  refine presentsEvents_keeps hx h fun u ev un hpsr hpmc _ admits => ?_
  have passes : ismOK p (u.pmc.get k) u.psr = true := admits.instruction_set
  rw [hpsr, hpmc, hk] at passes
  cases passes

/-- Settles O27: the two laws of the IA-64 only mask, and a monitor that fails the instruction set check admits no event. -/
theorem ia64OnlyMonitorsIgnoreIA32Code : Obligations.IA64OnlyMonitorsIgnoreIA32Code :=
  ⟨fun _ _ _ hm => ⟨ismOK_ia64Only_of_ia64 hm, ismOK_ia64Only_of_ia32 hm⟩,
    fun _ _ _ _ _ hx h hk his => presentsEvents_keeps_of_ismOK hx h (ismOK_ia64Only_of_ia32 hk his)⟩

end Sys2Proof.Machine
end

section
/-! PROOF. `SetPSRpp` at each privilege level, and the instructions, which cannot write `PSR.pp` (R102). -/

namespace Sys2Proof.Machine

variable {p : Params} {s t : State}

theorem setPSRpp_level0 (h0 : s.psr.cpl = 0#2) (v : Bool) :
    applyInput p (.setPSRpp v) s = .next { s with psr := { s.psr with pp := v } } :=
  privileged_level0 h0 _

theorem setPSRpp_other (h : s.psr.cpl ≠ 0#2) (v : Bool) : applyInput p (.setPSRpp v) s = .refused .privileged :=
  privileged_other h _

theorem exec_keeps_pp {i : Instr} (h : exec i s = .next t) : t.psr.pp = s.psr.pp := by
  rw [exec_next h]

/-- Settles O34: the operation is privileged, and the frame of the instructions holds `PSR.pp`. -/
theorem systemEnableIsSetAtLevelZeroOnly : Obligations.SystemEnableIsSetAtLevelZeroOnly :=
  ⟨fun _ _ v => ⟨fun h0 => setPSRpp_level0 h0 v, fun h => setPSRpp_other h v⟩, fun _ _ _ h => exec_keeps_pp h⟩

end Sys2Proof.Machine
end

section
/-! PROOF. Runs: what every step keeps a run keeps. Tags in flight are carried, and a frozen machine counts nothing. -/

namespace Sys2Proof.Machine

variable {p : Params} {s t : State} {x : Input} {xs : List Input}

/-- What each input of a run keeps, the run keeps. -/
theorem runInputs_keeps {P : State → Prop}
    (hstep : ∀ x ∈ xs, ∀ s t, P s → applyInput p x s = .next t → P t) (hs : P s) (h : runInputs p xs s = .next t) :
    P t := by
  induction xs generalizing s with
  | nil => cases h; exact hs
  | cons x xs ih =>
    obtain ⟨u, hu, ht⟩ := runInputs_cons_next.1 h
    exact ih (fun y hy => hstep y (List.mem_cons_of_mem x hy)) (hstep x (List.mem_cons_self ..) s u hs hu) ht

/-! ## Tags in flight -/

variable {id j : InstrId} {r : InFlight}

/-- What `Fetch` stores: a record without tags under an id that was free. -/
theorem fetchStep_next {ip : Addr} (h : fetchStep p j ip s = .next t) :
    findId s.inflight j = none ∧ ∃ q, t.inflight = putId s.inflight j q := by
  unfold fetchStep at h
  split at h
  · cases h
  next free =>
  rw [Option.not_isSome_iff_eq_none] at free
  split at h
  · cases h
  split at h <;> cases h <;> exact ⟨free, _, rfl⟩

theorem issueStep_next {enc : Enc} (h : issueStep p j enc s = .next t) : ∃ q, t.inflight = putId s.inflight j q := by
  unfold issueStep at h
  split at h
  · cases h
  split at h
  · cases h
  split at h <;> cases h <;> exact ⟨_, rfl⟩

theorem flushStep_next (h : flushStep j s = .next t) : t = s.setInflight (removeId s.inflight j) := by
  unfold flushStep at h
  split at h <;> cases h
  rfl

theorem retireStep_inflight (h : retireStep p j s = .next t) : t.inflight = removeId s.inflight j := by
  obtain ⟨_, counted⟩ := retireStep_counted h
  exact counted.only.inflight

theorem eventStep_inflight {e : EventInput} (h : eventStep p e s = .next t) : t.inflight = s.inflight := by
  obtain ⟨_, counted⟩ := eventStep_counted h
  exact counted.only.inflight

/-- The in-flight map has no writer but the pipeline. -/
theorem QuietNext.keeps_inflight (h : QuietNext p s x t) (hx : x.isPipeline = false) : t.inflight = s.inflight := by
  cases h with
  | instruction _ _ _ ht => rw [ht]
  | pipeline _ _ hp _ => rw [hx] at hp; cases hp
  | privileged _ _ _ hw => cases hw <;> rfl
  | _ => rfl

/-- A step of the pipeline on one instruction leaves the records of the others. -/
theorem applyInput_keeps_record (hr : findId s.inflight id = some r) (hx : x.actsOn id = false)
    (h : applyInput p x s = .next t) : findId t.inflight id = some r := by
  cases x with
  | fetch j ip =>
    obtain ⟨free, q, hq⟩ := fetchStep_next h
    have other : id ≠ j := fun e => by simp [← e, hr] at free
    rw [hq, findId_putId_other _ _ other, hr]
  | issue j enc =>
    obtain ⟨q, hq⟩ := issueStep_next h
    have other : id ≠ j := fun e => by simp [Input.actsOn, e] at hx
    rw [hq, findId_putId_other _ _ other, hr]
  | retire j =>
    have other : id ≠ j := fun e => by simp [Input.actsOn, e] at hx
    rw [retireStep_inflight h, findId_removeId_other _ other, hr]
  | flush j =>
    have other : id ≠ j := fun e => by simp [Input.actsOn, e] at hx
    rw [flushStep_next h, State.setInflight_inflight, findId_removeId_other _ other, hr]
  | event e => rw [eventStep_inflight h, hr]
  | _ => rw [(applyInput_quiet rfl h).keeps_inflight rfl, hr]

/-- Settles O19: each input that does not act on id keeps its record, hence the run does. -/
theorem tagsAreCarriedThroughRuns : Obligations.TagsAreCarriedThroughRuns := fun _ _ _ _ id r hr hxs h =>
  runInputs_keeps (P := fun u => findId u.inflight id = some r)
    (fun x hx _ _ hu hstep => applyInput_keeps_record hu (hxs x hx) hstep) hr h

/-! ## A frozen machine -/

/-- What counting and overflows may write is as it was. -/
structure SameCounts (s t : State) : Prop where
  pmd : t.pmd = s.pmd
  freeze : t.pmc0.fr = s.pmc0.fr
  pending : t.overflowPending = s.overflowPending

theorem SameCounts.trans {u : State} (h : SameCounts s u) (g : SameCounts u t) : SameCounts s t :=
  ⟨g.pmd.trans h.pmd, g.freeze.trans h.freeze, g.pending.trans h.pending⟩

theorem freezeOK_iff (s : State) : freezeOK s = true ↔ s.pmc0.fr = false := by
  rw [freezeOK, Bool.not_eq_true']

/-- A frozen machine admits no event at any monitor (R84). -/
theorem occur_of_frozen {o : Occurrence} (frozen : s.pmc0.fr = true) (h : occur p o s = .next t) : SameCounts s t := by
  obtain ⟨tag, -, counted⟩ := occur_next h
  have none_counted : ∀ k, ¬ (tag = true ∧ MonitorAdmits p s o.ev o.unit k) := by
    rintro k ⟨-, admits⟩
    have unfrozen := admits.not_frozen
    rw [frozen] at unfrozen
    cases unfrozen
  obtain ⟨hpmc0, hpending⟩ := counted.no_overflow fun k hk => absurd hk (none_counted k)
  exact ⟨counted.pmd_eq_of_none none_counted, congrArg PMC0.fr hpmc0, hpending⟩

theorem presentsEvents_of_frozen (frozen : s.pmc0.fr = true) (hx : x.presentsEvents = true)
    (h : applyInput p x s = .next t) : SameCounts s t := by
  cases x with
  | retire id =>
    obtain ⟨r, u, -, -, -, hu, ht⟩ := retireStep_next h
    have removed : SameCounts s (s.setInflight (removeId s.inflight id)) := ⟨rfl, rfl, rfl⟩
    have first := removed.trans (occur_of_frozen frozen hu)
    exact first.trans (occur_of_frozen (first.freeze.trans frozen) ht)
  | event e => exact occur_of_frozen frozen (eventStep_next h).2
  | _ => cases hx

theorem applyInput_of_frozen (frozen : s.pmc0.fr = true) (hfreeze : x.writesFreeze = false)
    (hcounter : x.writesCounter = false) (h : applyInput p x s = .next t) : SameCounts s t := by
  cases hx : x.presentsEvents with
  | false =>
    obtain ⟨hpmd, hpmc0, hpending⟩ := (applyInput_quiet hx h).overflow_state
    exact ⟨hpmd hcounter, congrArg PMC0.fr (hpmc0 hfreeze), hpending⟩
  | true => exact presentsEvents_of_frozen frozen hx h

/-- Settles O28: a frozen machine stays frozen and as it was in each step, hence through the run. -/
theorem frozenRunsCountNothing : Obligations.FrozenRunsCountNothing := by
  refine ⟨freezeOK_iff, fun p xs s t frozen hxs h => ?_⟩
  have same : SameCounts s t := by
    refine runInputs_keeps (P := SameCounts s) (fun x hx u v hu hstep => ?_) ⟨rfl, rfl, rfl⟩ h
    obtain ⟨hfreeze, hcounter⟩ := hxs x hx
    exact hu.trans (applyInput_of_frozen (hu.freeze.trans frozen) hfreeze hcounter hstep)
  exact ⟨same.pmd, same.freeze.trans frozen, same.pending⟩

end Sys2Proof.Machine
end

section
/-! PROOF. Who writes a monitor's configuration and its counter, and the enable bit without which it does not count (R82). -/

namespace Sys2Proof.Machine

variable {p : Params} {s t : State} {x : Input} {k : Fin 4}

/-! ## The registers of one monitor -/

theorem presentsEvents_pmc (hx : x.presentsEvents = true) (h : applyInput p x s = .next t) : t.pmc = s.pmc := by
  obtain ⟨_, only⟩ := presentsEvents_only hx h
  exact only.pmc

/-- The one writer of a monitor's configuration register (R103). -/
theorem QuietNext.configuration_writer (h : QuietNext p s x t) (hpmc : t.pmc.get k ≠ s.pmc.get k) :
    ∃ v, x = .writePMC (.pmc (p.monitorIndex.get k) v) ∧ t.pmc.get k = v := by
  cases h with
  | instruction _ _ _ ht => exact absurd (by rw [ht]) hpmc
  | pipeline _ _ _ ht => exact absurd (by rw [ht]) hpmc
  | privileged _ _ _ hw =>
    cases hw with
    | pmc i j v hj =>
      by_cases hkj : k = j
      · subst hkj
        exact ⟨v, by rw [Params.monitorIndex_of_monitorAt hj], Four.get_set_same ..⟩
      · exact absurd (Four.get_set_other _ _ hkj) hpmc
    | _ => exact absurd rfl hpmc
  | _ => exact absurd rfl hpmc

theorem configuration_writer (h : applyInput p x s = .next t) (hpmc : t.pmc.get k ≠ s.pmc.get k) :
    ∃ v, x = .writePMC (.pmc (p.monitorIndex.get k) v) ∧ t.pmc.get k = v := by
  cases hx : x.presentsEvents with
  | false => exact (applyInput_quiet hx h).configuration_writer hpmc
  | true => exact absurd (by rw [presentsEvents_pmc hx h]) hpmc

/-- The one software writer of a monitor's counter (R105). -/
theorem QuietNext.counter_writer (h : QuietNext p s x t) (hpmd : t.pmd.get k ≠ s.pmd.get k) :
    ∃ n, x = .writePMD (p.monitorIndex.get k) n := by
  cases h with
  | instruction _ _ _ ht => exact absurd (by rw [ht]) hpmd
  | pipeline _ _ _ ht => exact absurd (by rw [ht]) hpmd
  | privileged _ _ _ hw =>
    cases hw with
    | pmd i j v hj hv =>
      by_cases hkj : k = j
      · subst hkj
        exact ⟨v, by rw [Params.monitorIndex_of_monitorAt hj]⟩
      · exact absurd (Four.get_set_other _ _ hkj) hpmd
    | _ => exact absurd rfl hpmd
  | _ => exact absurd rfl hpmd

/-! ## The enable bits -/

theorem presentsEvents_keeps_of_enableOK (hx : x.presentsEvents = true) (h : applyInput p x s = .next t)
    (hk : enableOK (s.pmc.get k) s.psr = false) : t.pmd.get k = s.pmd.get k := by
  refine presentsEvents_keeps hx h fun u ev un hpsr hpmc _ admits => ?_
  have user := admits.user_enable
  have system := admits.system_enable
  rw [hpsr, hpmc] at user system
  cases hpm : (s.pmc.get k).pm with
  | false => simp [enableOK, hpm, user hpm] at hk
  | true => simp [enableOK, hpm, system hpm] at hk

theorem enableOK_user {m : PMCGeneric} (hm : m.pm = false) (psr : PSR) : enableOK m psr = psr.up := by
  rw [enableOK, hm, if_neg nofun]

/-- Settles O25: the enable check of either kind of monitor is its own bit of PSR, and without it the monitor keeps its
counter. -/
theorem enableBitGatesCounting : Obligations.EnableBitGatesCounting := fun _ _ _ _ _ hx h =>
  ⟨fun hpm hup => presentsEvents_keeps_of_enableOK hx h (by rw [enableOK_user hpm, hup]),
    fun hpm hpp => presentsEvents_keeps_of_enableOK hx h (by rw [enableOK_system hpm, hpp])⟩

/-- The levels of mask 1000 and of mask 1001, bit 3 first. -/
theorem levels_of_masks (l : BitVec 2) :
    ((0b1000#4).getLsbD l.toNat = true → l = 3#2) ∧ ((0b1001#4).getLsbD l.toNat = true → l = 3#2 ∨ l = 0#2) := by
  revert l
  decide

/-- Settles O26: a monitor that counted passed its level and its enable check. -/
theorem monitoringScopesOfTheFigures : Obligations.MonitoringScopesOfTheFigures := by
  intro p x s t k hx h counted
  have level : (s.pmc.get k).plm.getLsbD s.psr.cpl.toNat = true := by
    by_contra hplm
    exact counted (presentsEvents_keeps_of_plmOK hx h (Bool.not_eq_true _ ▸ hplm))
  have enabled : enableOK (s.pmc.get k) s.psr = true := by
    by_contra hoff
    exact counted (presentsEvents_keeps_of_enableOK hx h (Bool.not_eq_true _ ▸ hoff))
  obtain ⟨only3, only30⟩ := levels_of_masks s.psr.cpl
  refine ⟨fun hpm hplm => ?_, fun hpm hplm => ?_, fun hpm hplm => ?_⟩ <;> rw [hplm] at level
  · exact ⟨only3 level, (enableOK_user hpm _).symm.trans enabled⟩
  · exact ⟨only30 level, (enableOK_user hpm _).symm.trans enabled⟩
  · exact ⟨only30 level, (enableOK_system hpm _).symm.trans enabled⟩

end Sys2Proof.Machine
end

section
/-! PROOF. Events of a handler: what DCR.pp at delivery makes of a system-level monitor (R89, C10). -/

namespace Sys2Proof.Machine

variable {p : Params} {s t : State} {x : Input} {xs : List Input} {k : Fin 4}

/-- Monitor k is a system-level monitor that is off, and its counter is n. -/
structure SystemMonitorOff (k : Fin 4) (n : Nat) (s : State) : Prop where
  disabled : s.psr.pp = false
  system : (s.pmc.get k).pm = true
  count : s.pmd.get k = n

/-- The inputs of a handler's run that the statement on DCR.pp admits: none sets `PSR.pp`, makes monitor k a user-level one or
writes its counter. -/
structure KeepsSystemMonitorOff (p : Params) (k : Fin 4) (x : Input) : Prop where
  not_setPSRpp : x ≠ .setPSRpp true
  restored_off : ∀ v, x = .restorePSR v → v.pp = false
  stays_system : ∀ v, x = .writePMC (.pmc (p.monitorIndex.get k) v) → v.pm = true
  not_writePMD : ∀ n, x ≠ .writePMD (p.monitorIndex.get k) n

theorem KeepsSystemMonitorOff.keeps_disabled (hx : KeepsSystemMonitorOff p k x) (hpp : s.psr.pp = false)
    (hdcr : x = .interruption → s.dcr.pp = false) (h : applyInput p x s = .next t) : t.psr.pp = false := by
  by_contra hon
  have changed : t.psr.pp ≠ s.psr.pp := fun e => hon (e.trans hpp)
  rcases systemEnableHasThreeWriters.2 p x s t h changed with ⟨⟨v, rfl, hv⟩ | ⟨v, rfl, hv⟩, -⟩ | ⟨rfl, hv⟩
  · rw [hv, Bool.not_eq_false] at hon
    exact hx.not_setPSRpp (by rw [hon])
  · exact hon (hv.trans (hx.restored_off v rfl))
  · exact hon (hv.trans (hdcr rfl))

theorem KeepsSystemMonitorOff.keeps_system (hx : KeepsSystemMonitorOff p k x) (hpm : (s.pmc.get k).pm = true)
    (h : applyInput p x s = .next t) : (t.pmc.get k).pm = true := by
  by_cases same : t.pmc.get k = s.pmc.get k
  · rw [same, hpm]
  · obtain ⟨v, rfl, hv⟩ := configuration_writer h same
    rw [hv]
    exact hx.stays_system v rfl

theorem SystemMonitorOff.keeps_count {n : Nat} (hs : SystemMonitorOff k n s) (hx : KeepsSystemMonitorOff p k x)
    (h : applyInput p x s = .next t) : t.pmd.get k = s.pmd.get k := by
  cases hev : x.presentsEvents with
  | false =>
    by_contra changed
    obtain ⟨n, rfl⟩ := (applyInput_quiet hev h).counter_writer changed
    exact hx.not_writePMD n rfl
  | true => exact presentsEvents_keeps_of_enableOK hev h (by rw [enableOK_system hs.system, hs.disabled])

theorem SystemMonitorOff.step {n : Nat} (hs : SystemMonitorOff k n s) (hx : KeepsSystemMonitorOff p k x)
    (hdcr : x = .interruption → s.dcr.pp = false) (h : applyInput p x s = .next t) : SystemMonitorOff k n t :=
  ⟨hx.keeps_disabled hs.disabled hdcr h, hx.keeps_system hs.system h, (hs.keeps_count hx h).trans hs.count⟩

theorem defaultControl_stays_off (hs : s.dcr.pp = false) (hx : x ≠ .writeDCRpp true) (h : applyInput p x s = .next t) :
    t.dcr.pp = false := by
  by_contra hon
  obtain ⟨v, rfl, hv⟩ := defaultControlIsCopiedAtDelivery.2 p x s t h fun e => hon (e ▸ hs)
  rw [hv, Bool.not_eq_false] at hon
  exact hx (by rw [hon])

/-- A run of such inputs keeps the monitor off, if DCR.pp stays zero through it or no interruption reads it. -/
theorem SystemMonitorOff.run {n : Nat} (hs : SystemMonitorOff k n s) (hdcr : s.dcr.pp = false)
    (hxs : ∀ x ∈ xs, KeepsSystemMonitorOff p k x) (hno : Input.writeDCRpp true ∉ xs ∨ Input.interruption ∉ xs)
    (h : runInputs p xs s = .next t) : SystemMonitorOff k n t := by
  rcases hno with no_dcr | no_interruption
  · refine (runInputs_keeps (P := fun u => u.dcr.pp = false ∧ SystemMonitorOff k n u) ?_ ⟨hdcr, hs⟩ h).2
    rintro x hx u v ⟨udcr, hu⟩ hstep
    exact ⟨defaultControl_stays_off udcr (ne_of_mem_of_not_mem hx no_dcr) hstep, hu.step (hxs x hx) (fun _ => udcr) hstep⟩
  · refine runInputs_keeps (fun x hx u v hu hstep => ?_) hs h
    exact hu.step (hxs x hx) (fun e => absurd (e ▸ hx) no_interruption) hstep

/-- Settles O46: delivery copies a zero DCR.pp into PSR.pp, and with PSR.pp zero a system-level monitor stays off through the
run; with DCR.pp one, the handler's PSR passes the monitor's checks one by one. -/
theorem handlerEventsFollowDefaultControl : Obligations.HandlerEventsFollowDefaultControl := by
  constructor
  · intro p xs s t k hdcr hpm no_set restored stays no_write hno h
    obtain ⟨u, hu, ht⟩ := runInputs_cons_next.1 h
    cases interruption_next hu
    have delivered : SystemMonitorOff k (s.pmd.get k) (takeInterruption p s) := ⟨hdcr, hpm, rfl⟩
    refine (delivered.run hdcr (fun x hx => ⟨ne_of_mem_of_not_mem hx no_set, ?_, ?_, ?_⟩) hno ht).count
    · exact fun v e => restored v (e ▸ hx)
    · exact fun v e => stays v (e ▸ hx)
    · exact fun n => ne_of_mem_of_not_mem hx (no_write n)
  · intro p s t k u hdcr hpm hplm hism humask hfr h
    cases interruption_next h
    exact ⟨rfl, humask, hplm, fun huser => absurd (hpm.symm.trans huser) nofun, fun _ => hdcr, hism, hfr⟩

end Sys2Proof.Machine
end

section
/-! PROOF. Who writes the status fields and who unfreezes, and what no step above level 0 writes. -/

namespace Sys2Proof.Machine

variable {p : Params} {s t : State} {x : Input}

/-! ## The status fields -/

theorem QuietNext.pipeline_frame (h : QuietNext p s x t) (hx : x.isPipeline = true) :
    t = { s with inflight := t.inflight, drawCount := t.drawCount } := by
  cases h with
  | pipeline _ _ _ ht => exact ht
  | instruction _ _ hx' _ => rw [hx] at hx'; cases hx'
  | privileged _ _ _ hw => cases hw <;> cases hx
  | _ => cases hx

/-- No step of the pipeline writes PSR. -/
theorem pipeline_psr (hx : x.isPipeline = true) (h : applyInput p x s = .next t) : t.psr = s.psr := by
  cases hev : x.presentsEvents with
  | false => rw [(applyInput_quiet hev h).pipeline_frame hx]
  | true => exact (presentsEvents_psr_dcr hev h).1

theorem writePMCStep_psr {w : PMCWrite} (h : writePMCStep p w s = .next t) : t.psr = s.psr := by
  obtain ⟨-, h⟩ := privileged_next h
  cases w with
  | pmc i v =>
    dsimp only at h
    split at h <;> cases h
    rfl
  | _ => cases h; rfl

theorem writePMDStep_psr {i v : Nat} (h : writePMDStep p i v s = .next t) : t.psr = s.psr := by
  obtain ⟨-, h⟩ := privileged_next h
  split at h
  · cases h
  split at h <;> cases h
  rfl

/-- The writers of `PSR.up` (R13). -/
theorem userEnable_writers (h : applyInput p x s = .next t) (hup : t.psr.up ≠ s.psr.up) :
    (∃ v, x = .restorePSR v ∧ t.psr.up = v.up) ∨
      (∃ i, x = .instr i) ∨ (∃ u w, x = .slot u w) ∨ (∃ bytes n, x = .bundle bytes n) := by
  have kept (e : t.psr = s.psr) : False := hup (congrArg PSR.up e)
  cases x with
  | slot u w => exact .inr (.inr (.inl ⟨u, w, rfl⟩))
  | bundle bytes n => exact .inr (.inr (.inr ⟨bytes, n, rfl⟩))
  | instr i => exact .inr (.inl ⟨i, rfl⟩)
  | restorePSR v => obtain ⟨-, h⟩ := privileged_next h; cases h; exact .inl ⟨v, rfl, rfl⟩
  | writePMC w => exact (kept (writePMCStep_psr h)).elim
  | writePMD i v => exact (kept (writePMDStep_psr h)).elim
  | setPSRpp v => obtain ⟨-, h⟩ := privileged_next h; cases h; exact absurd rfl hup
  | writeIBR v => obtain ⟨-, h⟩ := privileged_next h; cases h; exact absurd rfl hup
  | writeDBR v => obtain ⟨-, h⟩ := privileged_next h; cases h; exact absurd rfl hup
  | writeDCRpp v => obtain ⟨-, h⟩ := privileged_next h; cases h; exact absurd rfl hup
  | setCpl v => cases h; exact absurd rfl hup
  | setIs v => cases h; exact absurd rfl hup
  | interruption => cases h; exact absurd rfl hup
  | _ => exact (kept (pipeline_psr rfl h)).elim

/-- The writers of `PSR.cpl` and `PSR.is` among the inputs that present no events (R11, R12). -/
theorem QuietNext.level_and_set_writers (h : QuietNext p s x t) :
    (t.psr.cpl ≠ s.psr.cpl → (∃ v, x = .restorePSR v ∧ t.psr.cpl = v.cpl) ∨
      x = .setCpl t.psr.cpl ∨ (x = .interruption ∧ t.psr.cpl = 0#2)) ∧
    (t.psr.is ≠ s.psr.is → (∃ v, x = .restorePSR v ∧ t.psr.is = v.is) ∨
      x = .setIs t.psr.is ∨ (x = .interruption ∧ t.psr.is = p.isAfterInterruption)) := by
  cases h with
  | instruction _ _ _ ht => exact ⟨fun hc => absurd (by rw [ht]) hc, fun hi => absurd (by rw [ht]) hi⟩
  | pipeline _ _ _ ht => exact ⟨fun hc => absurd (by rw [ht]) hc, fun hi => absurd (by rw [ht]) hi⟩
  | setCpl v => exact ⟨fun _ => .inr (.inl rfl), fun hi => absurd rfl hi⟩
  | setIs v => exact ⟨fun hc => absurd rfl hc, fun _ => .inr (.inl rfl)⟩
  | interruption => exact ⟨fun _ => .inr (.inr ⟨rfl, rfl⟩), fun _ => .inr (.inr ⟨rfl, rfl⟩)⟩
  | privileged _ _ _ hw =>
    cases hw with
    | restorePSR v => exact ⟨fun _ => .inl ⟨v, rfl, rfl⟩, fun _ => .inl ⟨v, rfl, rfl⟩⟩
    | _ => exact ⟨fun hc => absurd rfl hc, fun hi => absurd rfl hi⟩

/-- Settles O36: events leave PSR, and the other inputs have these writers. -/
theorem statusFieldsHaveTheirWriters : Obligations.StatusFieldsHaveTheirWriters := by
  intro p x s t h
  refine ⟨userEnable_writers h, ?_⟩
  cases hx : x.presentsEvents with
  | false => exact (applyInput_quiet hx h).level_and_set_writers
  | true =>
    have same := (presentsEvents_psr_dcr hx h).1
    exact ⟨fun hc => absurd (congrArg PSR.cpl same) hc, fun hi => absurd (congrArg PSR.is same) hi⟩

/-! ## The freeze bit, and the steps above level 0 -/

/-- Settles O42: every input but a write of PMC[0] keeps a set freeze bit, and that write is privileged and stores its value. -/
theorem onlySoftwareUnfreezes : Obligations.OnlySoftwareUnfreezes := by
  intro p x s t h frozen unfrozen
  cases hx : x.writesFreeze with
  | false =>
    have still_frozen := (onlyAnOverflowFreezesOrSignals p x s t h hx).1 frozen
    rw [unfrozen] at still_frozen
    cases still_frozen
  | true =>
    unfold Input.writesFreeze at hx
    split at hx
    · next v =>
      obtain ⟨h0, h⟩ := privileged_next h
      cases h
      exact ⟨v, rfl, unfrozen, h0⟩
    · cases hx

/-- Above level 0 an input without events writes PSR and the in-flight map only: every other write is privileged. -/
theorem QuietNext.frame_above_level0 (h : QuietNext p s x t) (hcpl : s.psr.cpl ≠ 0#2) :
    t = { s with psr := t.psr, inflight := t.inflight, drawCount := t.drawCount } := by
  cases h with
  | instruction _ _ _ ht => rw [ht]
  | pipeline _ _ _ ht => rw [ht]
  | privileged _ _ h0 _ => exact absurd h0 hcpl
  | _ => rfl

/-- Above level 0 any step writes, besides, what counting writes. -/
theorem frame_above_level0 (hcpl : s.psr.cpl ≠ 0#2) (h : applyInput p x s = .next t) :
    t = { s with
      psr := t.psr, inflight := t.inflight, drawCount := t.drawCount
      pmd := t.pmd, pmc0 := { s.pmc0 with fr := t.pmc0.fr }, overflowPending := t.overflowPending } := by
  cases hx : x.presentsEvents with
  | false => rw [(applyInput_quiet hx h).frame_above_level0 hcpl]
  | true =>
    obtain ⟨m, only⟩ := presentsEvents_only hx h
    rw [only.frame]

/-- Settles O43: the registers are outside the frame; the freeze bit, `PSR.pp` and the counters have no writer left above
level 0 but those named. -/
theorem userLevelCannotReconfigure : Obligations.UserLevelCannotReconfigure := by
  intro p x s t hcpl h
  have frame := frame_above_level0 hcpl h
  have freeze_kept (frozen : s.pmc0.fr = true) : t.pmc0.fr = true := by
    by_contra unfrozen
    obtain ⟨-, -, -, h0⟩ := onlySoftwareUnfreezes p x s t h frozen (Bool.not_eq_true _ ▸ unfrozen)
    exact hcpl h0
  have enable_kept (hx : x ≠ .interruption) : t.psr.pp = s.psr.pp := by
    by_contra changed
    rcases systemEnableHasThreeWriters.2 p x s t h changed with ⟨-, h0⟩ | ⟨hi, -⟩
    · exact hcpl h0
    · exact hx hi
  refine ⟨?_, ?_, freeze_kept, ?_, ?_, ?_, ?_, ?_, ?_, ?_, enable_kept, fun hx => ?_⟩
  case refine_10 => rw [(applyInput_quiet hx h).frame_above_level0 hcpl]
  all_goals rw [frame]

end Sys2Proof.Machine
end

section
/-! PROOF. Two states that differ in PMC[9] and in the values of the tags it gave: while no monitor selects the event that these
tags qualify, every run answers alike from them (R65, R67). -/

namespace Sys2Proof.Machine

variable {p : Params} {s t : State} {o o' : Occurrence} {r r' : InFlight} {m m' : InFlightMap}

/-! ## Records and maps that differ in the values of the second tags -/

/-- The same record but for the value of `tag9`. -/
def SameButTag9 (r r' : InFlight) : Prop := r' = { r with tag9 := r'.tag9 } ∧ r'.tag9.isSome = r.tag9.isSome

theorem SameButTag9.refl (r : InFlight) : SameButTag9 r r := ⟨rfl, rfl⟩

theorem SameButTag9.tag8 (h : SameButTag9 r r') : r'.tag8 = r.tag8 := by
  rw [h.1]

theorem SameButTag9.tag9_isSome (h : SameButTag9 r r') : r'.tag9.isSome = r.tag9.isSome := h.2

theorem SameButTag9.cons (hr : SameButTag9 r r') (id : InstrId) (h : List.Forall₂ SameRecordButTag9 m m') :
    List.Forall₂ SameRecordButTag9 ((id, r) :: m) ((id, r') :: m') :=
  .cons ⟨rfl, hr⟩ h

theorem findId_forall₂ (h : List.Forall₂ SameRecordButTag9 m m') (id : InstrId) :
    (findId m id = none ∧ findId m' id = none) ∨
      ∃ r r', findId m id = some r ∧ findId m' id = some r' ∧ SameButTag9 r r' := by
  induction h with
  | nil => exact .inl ⟨rfl, rfl⟩
  | @cons a b m m' hab _ ih =>
    obtain ⟨k, r⟩ := a
    obtain ⟨k', r'⟩ := b
    obtain ⟨rfl, hr⟩ := hab
    by_cases hid : k' = id
    · exact .inr ⟨r, r', if_pos hid, if_pos hid, hr⟩
    · simpa only [findId, if_neg hid] using ih

theorem putId_forall₂ (h : List.Forall₂ SameRecordButTag9 m m') (id : InstrId) (hr : SameButTag9 r r') :
    List.Forall₂ SameRecordButTag9 (putId m id r) (putId m' id r') := by
  induction h with
  | nil => exact hr.cons id .nil
  | @cons a b m m' hab h ih =>
    obtain ⟨k, x⟩ := a
    obtain ⟨k', x'⟩ := b
    obtain ⟨rfl, hx⟩ := hab
    exact rel_ite (hr.cons id (SameButTag9.cons hx k' h)) (rel_ite (hr.cons id h) (SameButTag9.cons hx k' ih))

theorem removeId_forall₂ (h : List.Forall₂ SameRecordButTag9 m m') (id : InstrId) :
    List.Forall₂ SameRecordButTag9 (removeId m id) (removeId m' id) := by
  induction h with
  | nil => exact .nil
  | @cons a b m m' hab h ih =>
    obtain ⟨k, x⟩ := a
    obtain ⟨k', x'⟩ := b
    obtain ⟨rfl, hx⟩ := hab
    exact rel_ite ih (SameButTag9.cons hx k' ih)

/-! ## States -/

def State.setMatcher9 (s : State) (w : MatchWord) (m : InFlightMap) : State := { s with pmc9 := w, inflight := m }

theorem sameButMatcher9_iff :
    SameButMatcher9 s t ↔ ∃ w m, t = s.setMatcher9 w m ∧ List.Forall₂ SameRecordButTag9 s.inflight m := by
  constructor
  · exact fun h => ⟨_, _, h.rest_equal, h.records⟩
  · rintro ⟨w, m, rfl, hm⟩
    exact ⟨rfl, hm⟩

theorem SameButMatcher9.observe (h : SameButMatcher9 s t) : State.observe t = State.observe s := by
  rw [h.rest_equal]
  rfl

/-! ## Counting -/

theorem SameButMatcher9.addDraws (h : SameButMatcher9 s t) (n : Nat) :
    SameButMatcher9 (s.addDraws n) (t.addDraws n) := by
  obtain ⟨w, m, rfl, hm⟩ := sameButMatcher9_iff.1 h
  exact ⟨rfl, hm⟩

theorem SameButMatcher9.markOverflow (h : SameButMatcher9 s t) :
    SameButMatcher9 (markOverflow s) (markOverflow t) := by
  obtain ⟨w, m, rfl, hm⟩ := sameButMatcher9_iff.1 h
  exact ⟨rfl, hm⟩

theorem SameButMatcher9.countMonitor (h : SameButMatcher9 s t) (k : Fin 4) :
    SameButMatcher9 (countMonitor p k s) (countMonitor p k t) := by
  obtain ⟨w, m, rfl, hm⟩ := sameButMatcher9_iff.1 h
  have counted (v : Nat) : SameButMatcher9 (s.setCounter k v) ((s.setMatcher9 w m).setCounter k v) := ⟨rfl, hm⟩
  exact rel_ite (counted _).markOverflow (counted _)

theorem SameButMatcher9.countIf (h : SameButMatcher9 s t) (q : Four Bool) (k : Fin 4) :
    SameButMatcher9 (countIf p q k s) (countIf p q k t) :=
  rel_ite (h.countMonitor k) h

theorem SameButMatcher9.countAll (h : SameButMatcher9 s t) (q : Four Bool) :
    SameButMatcher9 (countAll p q s) (countAll p q t) :=
  (((h.countIf q 0).countIf q 1).countIf q 2).countIf q 3

/-! ## Occurrences -/

/-- The same occurrence but for the value of the second tag of its instruction. -/
structure SameOccurrenceButTag9 (o o' : Occurrence) : Prop where
  ev : o'.ev = o.ev
  unit : o'.unit = o.unit
  daddr : o'.daddr = o.daddr
  tag8 : o'.tag8 = o.tag8
  tag9_isSome : o'.tag9.isSome = o.tag9.isSome

theorem SameOccurrenceButTag9.of_record (hr : SameButTag9 r r') (ev : EventId) (d : Option Addr) (u : Option UnitInfo) :
    SameOccurrenceButTag9 { ev := ev, instr := some r, daddr := d, unit := u }
      { ev := ev, instr := some r', daddr := d, unit := u } :=
  ⟨rfl, rfl, rfl, hr.tag8, hr.tag9_isSome⟩

theorem SameOccurrenceButTag9.retirement (hr : SameButTag9 r r') (ev : EventId) :
    SameOccurrenceButTag9 (retirementOccurrence ev r) (retirementOccurrence ev r') := .of_record hr ev none none

/-- The two tag checks have an answer in the same cases, and the same one but in class tagged9. -/
theorem SameOccurrenceButTag9.tagOK (h : SameOccurrenceButTag9 o o') :
    (tagOK p s o' = none ↔ tagOK p s o = none) ∧
      (p.eventClass o.ev ≠ .tagged9 → tagOK p s o' = tagOK p s o) := by
  have same (hc : p.eventClass o.ev ≠ .tagged9) : Machine.tagOK p s o' = Machine.tagOK p s o :=
    tagOK_congr_tag8 h.ev h.tag8 h.daddr hc
  refine ⟨?_, same⟩
  by_cases hc : p.eventClass o.ev = .tagged9
  · have hc' : p.eventClass o'.ev = .tagged9 := by rw [h.ev, hc]
    rw [tagOK_tagged9_eq_none_iff hc, tagOK_tagged9_eq_none_iff hc', h.tag8, ← Option.not_isSome_iff_eq_none,
      h.tag9_isSome, Option.not_isSome_iff_eq_none]
  · rw [same hc]

/-- A monitor that does not select the event is not qualified, whatever the tags are; the others are looked at in a class
in which the tag check is the same. -/
theorem SameOccurrenceButTag9.qualified (h : SameOccurrenceButTag9 o o') {tag tag' : Bool} {c : PMCGeneric}
    (htag : p.eventClass o.ev ≠ .tagged9 → tag' = tag) (hc : p.eventClass c.es ≠ .tagged9) :
    qualified p s o' tag' c = qualified p s o tag c := by
  unfold Machine.qualified umaskOK selectOK
  rw [h.ev, h.unit]
  by_cases hsel : c.es = o.ev
  · rw [htag (hsel ▸ hc)]
  · simp [hsel]

theorem SameButMatcher9.occur (h : SameButMatcher9 s t) (ho : SameOccurrenceButTag9 o o')
    (hn : NoMonitorSelectsTagged9 p s) : SameAnswer SameButMatcher9 (occur p o s) (occur p o' t) := by
  obtain ⟨w, m, rfl, hm⟩ := sameButMatcher9_iff.1 h
  obtain ⟨hnone, hsome⟩ := ho.tagOK (p := p) (s := s)
  have in_t : tagOK p (s.setMatcher9 w m) o' = tagOK p s o' := rfl
  cases htag : tagOK p s o with
  | none =>
    rw [occur_refused htag, occur_refused (in_t.trans (hnone.2 htag))]
    exact rfl
  | some tag =>
    obtain ⟨tag', htag'⟩ := Option.ne_none_iff_exists'.1 fun e => absurd (htag.symm.trans (hnone.1 e)) nofun
    have same_tag (hc : p.eventClass o.ev ≠ .tagged9) : tag' = tag := by
      rw [hsome hc, htag] at htag'
      exact (Option.some.inj htag').symm
    have same_qualified : (Four.of fun k => qualified p (s.setMatcher9 w m) o' tag' ((s.setMatcher9 w m).pmc.get k)) =
        Four.of fun k => qualified p s o tag (s.pmc.get k) :=
      congrArg Four.of (funext fun k => ho.qualified same_tag (hn k))
    have same_draws : dbrDraws (p.eventClass o'.ev) (s.setMatcher9 w m) = dbrDraws (p.eventClass o.ev) s := by
      rw [ho.ev]
      rfl
    unfold Machine.occur
    rw [in_t, htag, htag']
    dsimp only
    rw [same_qualified, same_draws]
    exact (h.addDraws _).countAll _

/-! ## The steps of the pipeline -/

theorem NoMonitorSelectsTagged9.of_pmc {u : State} (hn : NoMonitorSelectsTagged9 p s) (hpmc : u.pmc = s.pmc) :
    NoMonitorSelectsTagged9 p u := fun k => hpmc ▸ hn k

theorem eventStep_matcher9 (e : EventInput) (h : SameButMatcher9 s t) (hn : NoMonitorSelectsTagged9 p s) :
    SameAnswer SameButMatcher9 (eventStep p e s) (eventStep p e t) := by
  refine rel_ite rfl ?_
  cases e.instr with
  | none => exact h.occur ⟨rfl, rfl, rfl, rfl, rfl⟩ hn
  | some id =>
    dsimp only
    rcases findId_forall₂ h.records id with ⟨hs, ht⟩ | ⟨r, r', hs, ht, hr⟩ <;> rw [hs, ht]
    · exact rfl
    · exact h.occur (.of_record hr _ _ _) hn

theorem retireStep_matcher9 (id : InstrId) (h : SameButMatcher9 s t) (hn : NoMonitorSelectsTagged9 p s) :
    SameAnswer SameButMatcher9 (retireStep p id s) (retireStep p id t) := by
  have removed : SameButMatcher9 (s.setInflight (removeId s.inflight id)) (t.setInflight (removeId t.inflight id)) := by
    refine ⟨?_, removeId_forall₂ h.records id⟩
    rw [h.rest_equal]
    rfl
  unfold retireStep
  rcases findId_forall₂ h.records id with ⟨hs, ht⟩ | ⟨r, r', hs, ht, hr⟩ <;> rw [hs, ht]
  · exact rfl
  · dsimp only
    rw [hr.tag8, hr.tag9_isSome]
    refine rel_ite ?_ rfl
    have first := removed.occur (.retirement hr p.taggedRetired8) (hn.of_pmc rfl)
    rcases first.next_or_stop with ⟨u, v, hu, hv, huv⟩ | ⟨f, hf, hg⟩ | ⟨x, hx, hy⟩
    · obtain ⟨_, -, counted⟩ := occur_next hu
      rw [hu, hv]
      exact huv.occur (.retirement hr _) (hn.of_pmc counted.only.pmc)
    · rw [hf, hg]
      exact rfl
    · rw [hx, hy]
      exact rfl

theorem flushStep_matcher9 (id : InstrId) (h : SameButMatcher9 s t) :
    SameAnswer SameButMatcher9 (flushStep id s) (flushStep id t) := by
  obtain ⟨w, m, rfl, hm⟩ := sameButMatcher9_iff.1 h
  unfold flushStep
  rcases findId_forall₂ h.records id with ⟨hs, ht⟩ | ⟨r, r', hs, ht, -⟩ <;> rw [hs, ht]
  · exact rfl
  · exact ⟨rfl, removeId_forall₂ hm id⟩

/-- PMC[9] plays no part in the range tag. -/
theorem fetchStep_matcher9 (id : InstrId) (ip : Addr) (h : SameButMatcher9 s t) :
    SameAnswer SameButMatcher9 (fetchStep p id ip s) (fetchStep p id ip t) := by
  obtain ⟨w, m, rfl, hm⟩ := sameButMatcher9_iff.1 h
  have stored (q : InFlight) := putId_forall₂ hm id (SameButTag9.refl q)
  unfold fetchStep
  rcases findId_forall₂ h.records id with ⟨hs, ht⟩ | ⟨r, r', hs, ht, -⟩ <;> rw [hs, ht]
  · exact rel_ite rfl (rel_ite rfl (rel_ite ⟨rfl, stored _⟩ ⟨rfl, stored _⟩))
  · exact rfl

/-- The two records that `Issue` stores differ in what PMC[9] matched. -/
theorem issueStep_matcher9 (id : InstrId) (enc : Enc) (h : SameButMatcher9 s t) :
    SameAnswer SameButMatcher9 (issueStep p id enc s) (issueStep p id enc t) := by
  obtain ⟨w, m, rfl, hm⟩ := sameButMatcher9_iff.1 h
  unfold issueStep
  rcases findId_forall₂ h.records id with ⟨hs, ht⟩ | ⟨r, r', hs, ht, hr⟩ <;> rw [hs, ht]
  · exact rfl
  · obtain ⟨b, rfl⟩ : ∃ b, r' = { r with tag9 := b } := ⟨_, hr.1⟩
    have stored (a8 a9 b9 : Bool) := putId_forall₂ hm id
      (show SameButTag9 { r with enc := some enc, tag8 := some a8, tag9 := some a9 }
        { r with enc := some enc, tag8 := some a8, tag9 := some b9 } from ⟨rfl, rfl⟩)
    exact rel_ite rfl (rel_ite ⟨rfl, stored _ _ _⟩ ⟨rfl, stored _ _ _⟩)

/-! ## The other inputs -/

theorem exec_matcher9 (i : Instr) (h : SameButMatcher9 s t) : SameAnswer SameButMatcher9 (exec i s) (exec i t) := by
  obtain ⟨w, m, rfl, hm⟩ := sameButMatcher9_iff.1 h
  cases i <;> exact rel_ite (rel_ite rfl ⟨rfl, hm⟩) ⟨rfl, hm⟩

theorem SameButMatcher9.psr (h : SameButMatcher9 s t) : t.psr = s.psr := by
  rw [h.rest_equal]

theorem underIA64_runDecoded_matcher9 (d : Except DecodeReject Instr) (h : SameButMatcher9 s t) :
    SameAnswer SameButMatcher9 (underIA64 s (runDecoded d s)) (underIA64 t (runDecoded d t)) := by
  unfold underIA64
  rw [h.psr]
  refine rel_ite rfl ?_
  cases d with
  | ok i => exact exec_matcher9 i h
  | error r => exact rfl

theorem privileged_matcher9 {act act' : Result} (h : SameButMatcher9 s t)
    (hact : SameAnswer SameButMatcher9 act act') :
    SameAnswer SameButMatcher9 (privileged s act) (privileged t act') := by
  unfold privileged
  rw [h.psr]
  exact rel_ite hact rfl

theorem writePMCStep_matcher9 (c : PMCWrite) (h : SameButMatcher9 s t) :
    SameAnswer SameButMatcher9 (writePMCStep p c s) (writePMCStep p c t) := by
  refine privileged_matcher9 h ?_
  obtain ⟨w, m, rfl, hm⟩ := sameButMatcher9_iff.1 h
  cases c with
  | pmc i v =>
    dsimp only
    cases p.monitorAt i with
    | none => exact rfl
    | some k => exact ⟨rfl, hm⟩
  | _ => exact ⟨rfl, hm⟩

theorem writePMDStep_matcher9 (i v : Nat) (h : SameButMatcher9 s t) :
    SameAnswer SameButMatcher9 (writePMDStep p i v s) (writePMDStep p i v t) := by
  refine privileged_matcher9 h ?_
  obtain ⟨w, m, rfl, hm⟩ := sameButMatcher9_iff.1 h
  cases p.monitorAt i with
  | none => exact rfl
  | some k => exact rel_ite ⟨rfl, hm⟩ rfl

theorem applyInput_matcher9 (x : Input) (h : SameButMatcher9 s t) (hn : NoMonitorSelectsTagged9 p s) :
    SameAnswer SameButMatcher9 (applyInput p x s) (applyInput p x t) := by
  obtain ⟨w, m, rfl, hm⟩ := sameButMatcher9_iff.1 h
  cases x with
  | slot unit bits => exact underIA64_runDecoded_matcher9 _ h
  | bundle bytes n => exact underIA64_runDecoded_matcher9 _ h
  | instr i => exact exec_matcher9 i h
  | fetch id ip => exact fetchStep_matcher9 id ip h
  | issue id enc => exact issueStep_matcher9 id enc h
  | retire id => exact retireStep_matcher9 id h hn
  | flush id => exact flushStep_matcher9 id h
  | event e => exact eventStep_matcher9 e h hn
  | writePMC c => exact writePMCStep_matcher9 c h
  | writePMD i v => exact writePMDStep_matcher9 i v h
  | setCpl v => exact ⟨rfl, hm⟩
  | setIs v => exact ⟨rfl, hm⟩
  | interruption => exact ⟨rfl, hm⟩
  | _ => exact privileged_matcher9 h ⟨rfl, hm⟩

/-! ## Runs -/

/-- Only a write of a monitor's configuration register makes it select an event. -/
theorem NoMonitorSelectsTagged9.step {x : Input} (hn : NoMonitorSelectsTagged9 p s) (hx : x.selectsTagged9 p = false)
    (h : applyInput p x s = .next t) : NoMonitorSelectsTagged9 p t := by
  intro k
  by_cases same : t.pmc.get k = s.pmc.get k
  · rw [same]
    exact hn k
  · obtain ⟨v, rfl, hv⟩ := configuration_writer h same
    rw [hv]
    exact of_decide_eq_false hx

/-- Settles O50, by induction on the inputs: each step answers alike, and no monitor comes to select an event of class
tagged9. -/
theorem matcher9AffectsOnlyItsOwnEvent : Obligations.Matcher9AffectsOnlyItsOwnEvent := by
  intro p xs
  induction xs with
  | nil => exact fun s t h _ _ => ⟨h, h.observe⟩
  | cons x xs ih =>
    intro s t h hn hxs
    unfold runInputs
    rcases (applyInput_matcher9 x h hn).next_or_stop with ⟨u, v, hu, hv, huv⟩ | ⟨f, hf, hg⟩ | ⟨r, hr, hq⟩
    · rw [hu, hv]
      have hx : x.selectsTagged9 p = false := hxs x (List.mem_cons_self ..)
      exact ih u v huv (hn.step hx hu) fun y hy => hxs y (List.mem_cons_of_mem x hy)
    · rw [hf, hg]
      exact rfl
    · rw [hr, hq]
      exact rfl

end Sys2Proof.Machine
end

section
/-! PROOF. The encoding: the fields of a slot determine it and are read back from it, and the same for a bundle and its bytes
(R57, log 18). -/

namespace Sys2Proof

/-! ## The fields of a slot -/

section
variable (x4 : BitVec 4) (imm24 : Imm24) (qp : PredReg)

@[simp] theorem opcodeField_encodeM44 : opcodeField (encodeM44 x4 imm24 qp) = 0#4 := by
  apply BitVec.eq_of_getLsbD_eq
  intro i hi
  interval_cases i <;> simp [opcodeField, encodeM44]

@[simp] theorem x3Field_encodeM44 : x3Field (encodeM44 x4 imm24 qp) = 0#3 := by
  apply BitVec.eq_of_getLsbD_eq
  intro i hi
  interval_cases i <;> simp [x3Field, encodeM44]

@[simp] theorem x4Field_encodeM44 : x4Field (encodeM44 x4 imm24 qp) = x4 := by
  apply BitVec.eq_of_getLsbD_eq
  intro i hi
  interval_cases i <;> simp [x4Field, encodeM44]

@[simp] theorem imm24Field_encodeM44 : imm24Field (encodeM44 x4 imm24 qp) = imm24 := by
  apply BitVec.eq_of_getLsbD_eq
  intro i hi
  interval_cases i <;> simp [imm24Field, encodeM44]

@[simp] theorem qpField_encodeM44 : qpField (encodeM44 x4 imm24 qp) = qp := by
  apply BitVec.eq_of_getLsbD_eq
  intro i hi
  interval_cases i <;> simp [qpField, encodeM44]

end

/-- A slot whose opcode and x3 are zero is made of its other fields. -/
theorem encodeM44_fields {w : Slot} (hop : opcodeField w = 0#4) (hx3 : x3Field w = 0#3) :
    encodeM44 (x4Field w) (imm24Field w) (qpField w) = w := by
  have opcode_bits (i : Nat) (hi : i < 41) (h : 37 ≤ i) : w[i] = false := by
    rw [← BitVec.getLsbD_eq_getElem]
    have bit := congrArg (fun v => v.getLsbD (i - 37)) hop
    simpa [opcodeField, BitVec.getLsbD_extractLsb', show i - 37 < 4 by omega, Nat.add_sub_cancel' h] using bit
  have x3_bits (i : Nat) (hi : i < 41) (h : 33 ≤ i) (h' : i < 36) : w[i] = false := by
    rw [← BitVec.getLsbD_eq_getElem]
    have bit := congrArg (fun v => v.getLsbD (i - 33)) hx3
    simpa [x3Field, BitVec.getLsbD_extractLsb', show i - 33 < 3 by omega, Nat.add_sub_cancel' h] using bit
  apply BitVec.eq_of_getLsbD_eq
  intro i hi
  interval_cases i <;> simp [encodeM44, x4Field, imm24Field, qpField, opcode_bits, x3_bits]

/-! ## The decoder -/

theorem decodeSlot_ok {u : SlotUnit} {w : Slot} {i : Instr} (h : decodeSlot u w = .ok i) : u = .M ∧ decodeM w = .ok i := by
  cases u with
  | M => exact ⟨rfl, h⟩
  | _ => cases h

/-- What the decoder accepts, row by row (R57). -/
theorem decodeM_ok {w : Slot} {i : Instr} (h : decodeM w = .ok i) :
    opcodeField w = 0#4 ∧ x3Field w = 0#3 ∧
      (x4Field w = 4#4 ∧ i = .sum (imm24Field w) (qpField w) ∨
        x4Field w = 5#4 ∧ i = .rum (imm24Field w) (qpField w)) := by
  unfold decodeM at h
  split at h
  · next fixed =>
    obtain ⟨hop, hx3⟩ := fixed
    split at h
    · next hx4 => cases h; exact ⟨hop, hx3, .inl ⟨hx4, rfl⟩⟩
    split at h
    · next hx4 => cases h; exact ⟨hop, hx3, .inr ⟨hx4, rfl⟩⟩
    · cases h
  · cases h

/-- Settles O1: the fields of an encoding are those it was made of. -/
theorem decodeOfEncodeIsIdentity : Obligations.DecodeOfEncodeIsIdentity := by
  intro i
  cases i <;> simp [encode, decodeSlot, decodeM]

/-- Settles O2: a slot the decoder accepts has the fixed fields of its row, so the row's encoding of its operands is the slot. -/
theorem encodeOfDecodeIsIdentity : Obligations.EncodeOfDecodeIsIdentity := by
  intro u w i h
  obtain ⟨hu, h⟩ := decodeSlot_ok h
  obtain ⟨hop, hx3, ⟨hx4, rfl⟩ | ⟨hx4, rfl⟩⟩ := decodeM_ok h <;>
    exact ⟨hu, by rw [encode, ← hx4, encodeM44_fields hop hx3]⟩

/-! ## Mask and match -/

/-- The mask has ones in the three fixed fields. -/
theorem fixedFields_of_masked {w v : Slot} (h : w &&& rowMask = v) :
    opcodeField w = opcodeField v ∧ x3Field w = x3Field v ∧ x4Field w = x4Field v := by
  have opcode : rowMask.extractLsb' 37 4 = BitVec.allOnes 4 := by decide
  have x3 : rowMask.extractLsb' 33 3 = BitVec.allOnes 3 := by decide
  have x4 : rowMask.extractLsb' 27 4 = BitVec.allOnes 4 := by decide
  simp only [← h, opcodeField, x3Field, x4Field, BitVec.extractLsb'_and, opcode, x3, x4, BitVec.and_allOnes, and_self]

/-- Settles O3: an accepted slot is an encoding, which matches its row; and a slot that matches a row has the fixed fields that
the decoder looks at. -/
theorem decoderAgreesWithMaskAndMatch : Obligations.DecoderAgreesWithMaskAndMatch := by
  refine fun u w => ⟨⟨?_, ?_⟩, ?_, ?_⟩
  · rintro ⟨imm24, qp, h⟩
    obtain ⟨hu, rfl⟩ := encodeOfDecodeIsIdentity u w _ h
    exact ⟨hu, Laws.EncodingMatchesRow.sum imm24 qp⟩
  · rintro ⟨rfl, h⟩
    obtain ⟨hop, hx3, hx4⟩ := fixedFields_of_masked h
    exact ⟨imm24Field w, qpField w, by rw [decodeSlot, decodeM, hop, hx3, hx4]; rfl⟩
  · rintro ⟨imm24, qp, h⟩
    obtain ⟨hu, rfl⟩ := encodeOfDecodeIsIdentity u w _ h
    exact ⟨hu, Laws.EncodingMatchesRow.rum imm24 qp⟩
  · rintro ⟨rfl, h⟩
    obtain ⟨hop, hx3, hx4⟩ := fixedFields_of_masked h
    exact ⟨imm24Field w, qpField w, by rw [decodeSlot, decodeM, hop, hx3, hx4]; rfl⟩

/-! ## The operands as numbers -/

theorem qpField_toNat (w : Slot) : (qpField w).toNat = w.toNat % 64 := by
  simp [qpField, BitVec.extractLsb'_toNat]

/-- Three numbers in the places of i, i2d and imm21a do not overlap, so putting them together is adding them. -/
theorem or_three_parts {a b c : Nat} (hb : b < 4) (hc : c < 2 ^ 21) :
    a <<< 23 ||| b <<< 21 ||| c = a * 2 ^ 23 + b * 2 ^ 21 + c := by
  have low : b <<< 21 + c < 2 ^ 23 := by rw [Nat.shiftLeft_eq]; omega
  rw [Nat.or_assoc, ← Nat.shiftLeft_add_eq_or_of_lt hc, ← Nat.shiftLeft_add_eq_or_of_lt low, Nat.shiftLeft_eq,
    Nat.shiftLeft_eq, Nat.add_assoc]

/-- A shift within the width loses no bit. -/
theorem toNat_setWidth_shiftLeft {n m k : Nat} (x : BitVec n) (h : n + k ≤ m) :
    (x.setWidth m <<< k).toNat = x.toNat <<< k := by
  have fits : x.toNat <<< k < 2 ^ m := by
    rw [Nat.shiftLeft_eq]
    calc x.toNat * 2 ^ k < 2 ^ n * 2 ^ k := Nat.mul_lt_mul_of_pos_right x.isLt (Nat.two_pow_pos k)
      _ = 2 ^ (n + k) := (pow_add ..).symm
      _ ≤ 2 ^ m := Nat.pow_le_pow_right (by decide) h
  rw [BitVec.toNat_shiftLeft, BitVec.toNat_setWidth_of_le (by omega), Nat.mod_eq_of_lt fits]

/-- R57's arithmetic. -/
theorem imm24Field_toNat (w : Slot) :
    (imm24Field w).toNat =
      w.toNat / 2 ^ 36 % 2 * 2 ^ 23 + w.toNat / 2 ^ 31 % 4 * 2 ^ 21 + w.toNat / 2 ^ 6 % 2 ^ 21 := by
  rw [← or_three_parts (Nat.mod_lt _ (by decide)) (Nat.mod_lt _ (by decide)), imm24Field, BitVec.toNat_or,
    BitVec.toNat_or, toNat_setWidth_shiftLeft _ (by decide), toNat_setWidth_shiftLeft _ (by decide),
    BitVec.toNat_setWidth_of_le (by decide)]
  simp only [BitVec.extractLsb'_toNat, Nat.shiftRight_eq_div_pow]

/-- The operands the decoder gives are the slot's fields, in either row. -/
theorem operands_of_decodeM {w : Slot} {imm24 : Imm24} {qp : PredReg}
    (h : decodeM w = .ok (.sum imm24 qp) ∨ decodeM w = .ok (.rum imm24 qp)) :
    imm24 = imm24Field w ∧ qp = qpField w := by
  rcases h with h | h
  · obtain ⟨-, -, ⟨-, e⟩ | ⟨-, e⟩⟩ := decodeM_ok h
    · cases e; exact ⟨rfl, rfl⟩
    · cases e
  · obtain ⟨-, -, ⟨-, e⟩ | ⟨-, e⟩⟩ := decodeM_ok h
    · cases e
    · cases e; exact ⟨rfl, rfl⟩

/-- Settles O4: an accepted slot's operands are its fields. -/
theorem operandsAreTheSlotsFields : Obligations.OperandsAreTheSlotsFields := by
  intro w imm24 qp h
  obtain ⟨rfl, rfl⟩ := operands_of_decodeM h
  exact ⟨imm24Field_toNat w, qpField_toNat w⟩

/-! ## Bundles -/

theorem length_toLittleEndian (n v : Nat) : (toLittleEndian n v).length = n := by
  induction n generalizing v with
  | zero => rfl
  | succ n ih => rw [toLittleEndian, List.length_cons, ih]

theorem littleEndian_toLittleEndian (n v : Nat) : littleEndian (toLittleEndian n v) = v % 256 ^ n := by
  induction n generalizing v with
  | zero => rw [pow_zero, Nat.mod_one]; rfl
  | succ n ih => rw [toLittleEndian, littleEndian, ih, BitVec.toNat_ofNat, pow_succ' 256 n, Nat.mod_mul]

/-- Each part is read from where it was put, and the others do not reach there. -/
theorem splitBundle_joinBundle (b : Bundle) : splitBundle (joinBundle b) = b := by
  obtain ⟨template, slot0, slot1, slot2⟩ := b
  unfold splitBundle joinBundle
  congr 1
  all_goals
    ext i hi
    simp only [BitVec.getElem_extractLsb', BitVec.getLsbD_or, BitVec.getLsbD_shiftLeft, BitVec.getLsbD_setWidth]
    grind

theorem decodeBundle_of_length {bytes : List Byte} (h : bytes.length = 16) :
    decodeBundle bytes = .ok (splitBundle (BitVec.ofNat 128 (littleEndian bytes))) :=
  if_pos h

theorem decodeBundle_of_other_length {bytes : List Byte} (h : bytes.length ≠ 16) :
    decodeBundle bytes = .error .bundleLength :=
  if_neg h

/-- Settles O5: the 16 bytes stand for the 128 bits they were made of. -/
theorem bundleDecodeOfEncodeIsIdentity : Obligations.BundleDecodeOfEncodeIsIdentity := by
  intro b
  have number : littleEndian (encodeBundle b) = (joinBundle b).toNat := by
    rw [encodeBundle, littleEndian_toLittleEndian]
    exact Nat.mod_eq_of_lt (joinBundle b).isLt
  have length : (encodeBundle b).length = 16 := length_toLittleEndian ..
  rw [decodeBundle_of_length length, number, BitVec.ofNat_toNat, BitVec.setWidth_eq,
    splitBundle_joinBundle]

theorem extractLsb'_ofNat_toNat {N : Nat} (hN : N < 2 ^ 128) (start len : Nat) :
    ((BitVec.ofNat 128 N).extractLsb' start len).toNat = N / 2 ^ start % 2 ^ len := by
  rw [BitVec.extractLsb'_toNat, BitVec.toNat_ofNat, Nat.mod_eq_of_lt hN, Nat.shiftRight_eq_div_pow]

/-- Settles O51: 16 bytes stand for a number below 2^128, of which the parts are the stated bits. -/
theorem bundleFieldsAreTheStoredBits : Obligations.BundleFieldsAreTheStoredBits := by
  intro bytes N hN
  refine ⟨fun h => ?_, decodeBundle_of_other_length⟩
  have number : littleEndian bytes = N := by rw [littleEndian_eq_sum, h, hN]
  have fits : N < 2 ^ 128 := by
    have bound := littleEndian_lt bytes
    rwa [number, h] at bound
  refine ⟨_, decodeBundle_of_length h, ?_⟩
  rw [number]
  refine ⟨?_, extractLsb'_ofNat_toNat fits 5 41, extractLsb'_ofNat_toNat fits 46 41, extractLsb'_ofNat_toNat fits 87 41⟩
  have template := extractLsb'_ofNat_toNat fits 0 5
  rwa [pow_zero, Nat.div_one] at template

/-- Settles O6, by running the decoder. -/
theorem writtenOutWordsDecode : Obligations.WrittenOutWordsDecode := by
  unfold Obligations.WrittenOutWordsDecode
  decide

end Sys2Proof
end

section
/-! PROOF. The step: it performs the oldest input, runs what the decoder gives and refuses what it rejects. -/

namespace Sys2Proof.Machine

variable {p : Params} {s : State} {x : Input} {rest : List Input}

theorem stepWith_cons (h : s.inputs = x :: rest) : stepWith p s = applyInput p x { s with inputs := rest } := by
  rw [stepWith, h]

theorem stepWith_nil (h : s.inputs = []) : stepWith p s = .fault .endOfRun := by
  rw [stepWith, h]

/-- Settles O7, by the two forms of the list of inputs. -/
theorem stepPerformsOldestInput : Obligations.StepPerformsOldestInput :=
  fun _ => ⟨fun _ _ h => stepWith_cons h, fun h => stepWith_nil h⟩

theorem underIA64_of_ia64 (h : s.psr.is = false) (act : Result) : underIA64 s act = act := by
  rw [underIA64, h, if_neg nofun]

theorem underIA64_of_ia32 (h : s.psr.is = true) (act : Result) : underIA64 s act = .refused .ia32Code := by
  rw [underIA64, h, if_pos rfl]

theorem applyInput_slot (h : s.psr.is = false) (u : SlotUnit) (w : Slot) :
    applyInput p (.slot u w) s = runDecoded (decodeSlot u w) s :=
  underIA64_of_ia64 h _

theorem applyInput_bundle (h : s.psr.is = false) (bytes : List Byte) (n : SlotNumber) :
    applyInput p (.bundle bytes n) s = runDecoded (decodeInBundle p bytes n) s :=
  underIA64_of_ia64 h _

theorem applyInput_slot_ok {u : SlotUnit} {w : Slot} {i : Instr} (h : s.psr.is = false) (hd : decodeSlot u w = .ok i) :
    applyInput p (.slot u w) s = exec i s := by
  rw [applyInput_slot h, hd, runDecoded]

theorem applyInput_bundle_ok {bytes : List Byte} {n : SlotNumber} {i : Instr} (h : s.psr.is = false)
    (hd : decodeInBundle p bytes n = .ok i) : applyInput p (.bundle bytes n) s = exec i s := by
  rw [applyInput_bundle h, hd, runDecoded]

theorem decodeInBundle_of_ok {bytes : List Byte} {b : Bundle} (h : decodeBundle bytes = .ok b) (n : SlotNumber) :
    decodeInBundle p bytes n = decodeSlot (p.slotUnit b.template n) (b.slot n) := by
  rw [decodeInBundle, h]

theorem decodeInBundle_of_error {bytes : List Byte} {r : DecodeReject} (h : decodeBundle bytes = .error r)
    (n : SlotNumber) : decodeInBundle p bytes n = .error r := by
  rw [decodeInBundle, h]

theorem decodeSlot_of_not_M {u : SlotUnit} (h : u ≠ .M) (w : Slot) : decodeSlot u w = .error .notMUnit := by
  cases u with
  | M => exact absurd rfl h
  | _ => rfl

theorem decodeTableWord_some {nbits w : Nat} {i : Instr} (h : decodeTableWord nbits w = some i) :
    decodeSlot .M (BitVec.ofNat 41 (w % 2 ^ nbits)) = .ok i := by
  unfold decodeTableWord at h
  dsimp only at h
  split at h
  · split at h
    · next hd => cases h; exact hd
    · cases h
  · cases h

/-- Settles O8: each way in which an instruction reaches the machine comes to running what the decoder gives. -/
theorem stepRunsDecodedInstruction : Obligations.StepRunsDecodedInstruction := by
  intro s rest i
  refine ⟨fun w his hin hd => ?_, fun p bytes n b his hin hb hM hd => ?_, fun hin => stepWith_cons hin,
    fun nbits w hd => ?_⟩
  · exact (stepWith_cons hin).trans (applyInput_slot_ok (s := { s with inputs := rest }) his hd)
  · have in_bundle : decodeInBundle p bytes n = .ok i := by rw [decodeInBundle_of_ok hb, hM, hd]
    exact (stepWith_cons hin).trans (applyInput_bundle_ok (s := { s with inputs := rest }) his in_bundle)
  · exact (stepWith_cons rfl).trans
      (applyInput_slot_ok (s := { s with psr := { s.psr with is := false } }) rfl (decodeTableWord_some hd))

/-- Settles O9: a refusal carries the decoder's reason, and the reasons are those of the unit type, the table and the length. -/
theorem otherSlotsAreRefused : Obligations.OtherSlotsAreRefused := by
  intro p s
  refine ⟨fun u w r his hd => ?_, fun u w his => underIA64_of_ia32 his _, fun bytes n his => underIA64_of_ia32 his _,
    fun bytes n his hlen => ?_, fun bytes n r his hd => ?_, fun bytes n b his hb hM => ?_,
    fun bytes n b his hb hM hd => ?_⟩
  · rw [applyInput_slot his, hd, runDecoded]
  · rw [applyInput_bundle his, decodeInBundle_of_error (decodeBundle_of_other_length hlen), runDecoded]
  · rw [applyInput_bundle his, hd, runDecoded]
  · rw [applyInput_bundle his, decodeInBundle_of_ok hb, decodeSlot_of_not_M hM, runDecoded]
  · rw [applyInput_bundle his, decodeInBundle_of_ok hb, hM, hd, runDecoded]

end Sys2Proof.Machine
end

section
/-! PROOF. No step reads the inputs that follow, so the host's machine performs a list of inputs as `runInputs` does. -/

namespace Sys2Proof.Machine

variable {p : Params}

def State.withInputs (s : State) (l : List Input) : State := { s with inputs := l }

/-- The same answer, a next state having the inputs l. -/
def answerWithInputs (l : List Input) : Result → Result
  | .next s => .next (s.withInputs l)
  | .fault f => .fault f
  | .refused r => .refused r

variable (l : List Input)

theorem countMonitor_withInputs (k : Fin 4) (s : State) :
    countMonitor p k (s.withInputs l) = (countMonitor p k s).withInputs l := by
  simp only [countMonitor, apply_ite (State.withInputs · l)]
  rfl

theorem countIf_withInputs (q : Four Bool) (k : Fin 4) (s : State) :
    countIf p q k (s.withInputs l) = (countIf p q k s).withInputs l := by
  rw [countIf, countMonitor_withInputs, countIf, apply_ite (State.withInputs · l)]

theorem countAll_withInputs (q : Four Bool) (s : State) :
    countAll p q (s.withInputs l) = (countAll p q s).withInputs l := by
  simp only [countAll, countIf_withInputs]

theorem occur_withInputs (o : Occurrence) (s : State) :
    occur p o (s.withInputs l) = answerWithInputs l (occur p o s) := by
  have same_tag : tagOK p (s.withInputs l) o = tagOK p s o := rfl
  unfold occur
  rw [same_tag]
  cases tagOK p s o with
  | none => rfl
  | some tag => exact congrArg Host.Outcome.next (countAll_withInputs l _ (s.addDraws _))

theorem exec_withInputs (i : Instr) (s : State) : exec i (s.withInputs l) = answerWithInputs l (exec i s) := by
  have shared (v : Bool) (imm24 : Imm24) (qp : PredReg) :
      userMaskInstr v imm24 qp (s.withInputs l) = answerWithInputs l (userMaskInstr v imm24 qp s) := by
    unfold userMaskInstr
    rw [apply_ite (answerWithInputs l), apply_ite (answerWithInputs l)]
    rfl
  cases i <;> exact shared ..

theorem underIA64_runDecoded_withInputs (d : Except DecodeReject Instr) (s : State) :
    underIA64 (s.withInputs l) (runDecoded d (s.withInputs l)) = answerWithInputs l (underIA64 s (runDecoded d s)) := by
  unfold underIA64
  rw [apply_ite (answerWithInputs l)]
  cases d with
  | ok i => rw [runDecoded, exec_withInputs]; rfl
  | error r => rfl

theorem fetchStep_withInputs (id : InstrId) (ip : Addr) (s : State) :
    fetchStep p id ip (s.withInputs l) = answerWithInputs l (fetchStep p id ip s) := by
  simp only [fetchStep, apply_ite (answerWithInputs l)]
  rfl

theorem issueStep_withInputs (id : InstrId) (enc : Enc) (s : State) :
    issueStep p id enc (s.withInputs l) = answerWithInputs l (issueStep p id enc s) := by
  have same_map : (s.withInputs l).inflight = s.inflight := rfl
  unfold issueStep
  rw [same_map]
  cases findId s.inflight id with
  | none => rfl
  | some r =>
    simp only [apply_ite (answerWithInputs l)]
    rfl

theorem flushStep_withInputs (id : InstrId) (s : State) :
    flushStep id (s.withInputs l) = answerWithInputs l (flushStep id s) := by
  have same_map : (s.withInputs l).inflight = s.inflight := rfl
  unfold flushStep
  rw [same_map]
  cases findId s.inflight id <;> rfl

theorem eventStep_withInputs (e : EventInput) (s : State) :
    eventStep p e (s.withInputs l) = answerWithInputs l (eventStep p e s) := by
  have same_map : (s.withInputs l).inflight = s.inflight := rfl
  unfold eventStep
  rw [same_map, apply_ite (answerWithInputs l)]
  congr 1
  cases e.instr with
  | none => exact occur_withInputs l _ s
  | some id =>
    dsimp only
    cases findId s.inflight id with
    | none => rfl
    | some r => exact occur_withInputs l _ s

theorem retireStep_withInputs (id : InstrId) (s : State) :
    retireStep p id (s.withInputs l) = answerWithInputs l (retireStep p id s) := by
  have same_map : (s.withInputs l).inflight = s.inflight := rfl
  unfold retireStep
  rw [same_map]
  cases findId s.inflight id with
  | none => rfl
  | some r =>
    have same_removal (m : InFlightMap) : (s.withInputs l).setInflight m = (s.setInflight m).withInputs l := rfl
    dsimp only
    rw [apply_ite (answerWithInputs l), same_removal, occur_withInputs]
    congr 1
    cases occur p (retirementOccurrence p.taggedRetired8 r) (s.setInflight (removeId s.inflight id)) with
    | next u => exact occur_withInputs l _ u
    | fault f => rfl
    | refused x => rfl

theorem privileged_withInputs (s : State) {act act' : Result} (h : act' = answerWithInputs l act) :
    privileged (s.withInputs l) act' = answerWithInputs l (privileged s act) := by
  rw [h, privileged, privileged, apply_ite (answerWithInputs l)]
  rfl

theorem writePMCStep_withInputs (c : PMCWrite) (s : State) :
    writePMCStep p c (s.withInputs l) = answerWithInputs l (writePMCStep p c s) := by
  refine privileged_withInputs l s ?_
  cases c with
  | pmc i v =>
    dsimp only
    cases p.monitorAt i <;> rfl
  | _ => rfl

theorem writePMDStep_withInputs (i v : Nat) (s : State) :
    writePMDStep p i v (s.withInputs l) = answerWithInputs l (writePMDStep p i v s) := by
  refine privileged_withInputs l s ?_
  cases p.monitorAt i with
  | none => rfl
  | some k =>
    simp only [apply_ite (answerWithInputs l)]
    rfl

theorem applyInput_withInputs (x : Input) (s : State) :
    applyInput p x (s.withInputs l) = answerWithInputs l (applyInput p x s) := by
  cases x with
  | slot unit bits => exact underIA64_runDecoded_withInputs l _ s
  | bundle bytes n => exact underIA64_runDecoded_withInputs l _ s
  | instr i => exact exec_withInputs l i s
  | fetch id ip => exact fetchStep_withInputs l id ip s
  | issue id enc => exact issueStep_withInputs l id enc s
  | retire id => exact retireStep_withInputs l id s
  | flush id => exact flushStep_withInputs l id s
  | event e => exact eventStep_withInputs l e s
  | writePMC c => exact writePMCStep_withInputs l c s
  | writePMD i v => exact writePMDStep_withInputs l i v s
  | setCpl v => rfl
  | setIs v => rfl
  | interruption => rfl
  | _ => exact privileged_withInputs l s rfl

/-! ## Runs of the machine -/

section
variable {M : Host.Core} {n : Nat} {u v : M.State}

theorem run_of_next (h : M.step u = .next v) : M.run (n + 1) u = M.run n v := by
  rw [Host.Core.run, h]

theorem run_of_fault {f : M.Fault} (h : M.step u = .fault f) : M.run (n + 1) u = .fault f := by
  rw [Host.Core.run, h]

theorem run_of_refused {r : M.Refusal} (h : M.step u = .refused r) : M.run (n + 1) u = .refused r := by
  rw [Host.Core.run, h]

end

/-- A run of the machine over the inputs in its state is the run over the list. -/
theorem core_run_withInputs (xs : List Input) (s : State) :
    Host.Core.run Sys2Proof.core xs.length (s.withInputs xs) = answerWithInputs [] (runInputs Config.params xs s) := by
  induction xs generalizing s with
  | nil => rfl
  | cons x xs ih =>
    have first : Sys2Proof.core.step (s.withInputs (x :: xs)) = answerWithInputs xs (applyInput Config.params x s) :=
      (stepWith_cons (s := s.withInputs (x :: xs)) rfl).trans (applyInput_withInputs xs x s)
    rw [runInputs]
    cases h : applyInput Config.params x s <;> rw [h] at first
    case next t => exact (run_of_next first).trans (ih t)
    case fault f => exact run_of_fault first
    case refused r => exact run_of_refused first

theorem runInputs_withInputs (xs : List Input) (s : State) :
    runInputs p xs (s.withInputs l) = answerWithInputs l (runInputs p xs s) := by
  induction xs generalizing s with
  | nil => rfl
  | cons x xs ih =>
    rw [runInputs, applyInput_withInputs, runInputs]
    cases applyInput p x s with
    | next t => exact ih t
    | fault f => rfl
    | refused r => rfl

/-- Settles O10: no step reads the inputs that follow, so the machine's run is the run over the list. -/
theorem machineRunPerformsTheInputs : Obligations.MachineRunPerformsTheInputs := by
  intro xs s hs
  have no_inputs : s.withInputs [] = s := by rw [← hs]; rfl
  have same_run := runInputs_withInputs (p := Config.params) [] xs s
  rw [no_inputs] at same_run
  exact (core_run_withInputs xs s).trans same_run.symm

end Sys2Proof.Machine
end

section
/-! PROOF. The two instructions in every case of mask and predicate (R100, R101). -/

namespace Sys2Proof.Machine

variable {imm24 : Imm24} {qp : PredReg} {s t : State}

theorem selectsReserved_iff (imm24 : Imm24) :
    imm24.selectsReserved = true ↔ imm24.getLsbD 0 = true ∨ imm24.extractLsb' 6 18 ≠ 0#18 := by
  rw [Imm24.selectsReserved, Bool.or_eq_true, bne_iff_ne]

theorem selectsReserved_of_userMask (h0 : imm24.getLsbD 0 = false) (hrest : imm24.extractLsb' 6 18 = 0#18) :
    imm24.selectsReserved = false := by
  rw [Imm24.selectsReserved, h0, hrest, Bool.false_or, bne_self_eq_false]

/-- Predicate register 0 always holds (R57). -/
theorem predicateHolds_zero (s : State) : predicateHolds 0#6 s = true := if_pos rfl

theorem predicateDraws_of_ne (h : qp ≠ 0#6) : predicateDraws qp = 1 := if_neg h

/-- With a mask inside the user mask both instructions complete. -/
theorem userMaskInstr_of_userMask (hmask : imm24.selectsReserved = false) (v : Bool) (qp : PredReg) (s : State) :
    userMaskInstr v imm24 qp s = .next { s with
      psr := { s.psr with up := if predicateHolds qp s && selectsUp imm24 then v else s.psr.up }
      drawCount := s.drawCount + predicateDraws qp } := by
  rw [userMaskInstr, if_neg (Bool.not_eq_true _ ▸ hmask)]
  cases predicateHolds qp s with
  | false => rfl
  | true => cases hup : selectsUp imm24 <;> simp [State.setPSR, State.addDraws, writeUserMask, hup]

theorem userMaskInstr_of_reserved (hmask : imm24.selectsReserved = true) (hp : predicateHolds qp s = true) (v : Bool) :
    userMaskInstr v imm24 qp s = .refused .reservedField := by
  rw [userMaskInstr, if_pos hmask, if_pos hp]

theorem userMaskInstr_of_reserved_nop (hmask : imm24.selectsReserved = true) (hp : predicateHolds qp s = false)
    (v : Bool) : userMaskInstr v imm24 qp s = .next (s.addDraws (predicateDraws qp)) := by
  rw [userMaskInstr, if_pos hmask, hp, if_neg nofun]

/-- Settles O11: `b` is the predicate. -/
theorem sumSetsUserMonitorEnable : Obligations.SumSetsUserMonitorEnable := by
  intro imm24 qp s h0 hrest
  refine ⟨predicateHolds qp s, fun hqp => hqp ▸ predicateHolds_zero s, ?_⟩
  have set_bit (b : Bool) : (if b = true then true else s.psr.up) = (s.psr.up || b) := by
    cases b <;> cases s.psr.up <;> rfl
  refine (userMaskInstr_of_userMask (selectsReserved_of_userMask h0 hrest) true qp s).trans ?_
  rw [set_bit]
  rfl

/-- Settles O12: `b` is the predicate. -/
theorem rumClearsUserMonitorEnable : Obligations.RumClearsUserMonitorEnable := by
  intro imm24 qp s h0 hrest
  refine ⟨predicateHolds qp s, fun hqp => hqp ▸ predicateHolds_zero s, ?_⟩
  have clear_bit (b : Bool) : (if b = true then false else s.psr.up) = (s.psr.up && !b) := by
    cases b <;> cases s.psr.up <;> rfl
  refine (userMaskInstr_of_userMask (selectsReserved_of_userMask h0 hrest) false qp s).trans ?_
  rw [clear_bit]
  rfl

/-- With a reserved mask: refused where the predicate holds, without effect where it does not. -/
theorem userMaskInstr_reserved (hmask : imm24.selectsReserved = true) (v : Bool) (hqp : qp ≠ 0#6) :
    userMaskInstr v imm24 qp s = .refused .reservedField ∨
      userMaskInstr v imm24 qp s = .next { s with drawCount := s.drawCount + 1 } := by
  cases hp : predicateHolds qp s with
  | true => exact .inl (userMaskInstr_of_reserved hmask hp v)
  | false =>
    refine .inr ((userMaskInstr_of_reserved_nop hmask hp v).trans ?_)
    rw [predicateDraws_of_ne hqp]
    rfl

/-- Settles O13, by whether the predicate holds, which that of register 0 does. -/
theorem reservedMaskIsRefused : Obligations.ReservedMaskIsRefused := by
  intro imm24 qp s h
  have hmask := (selectsReserved_iff imm24).2 h
  refine ⟨?_, fun hqp => ⟨userMaskInstr_reserved hmask true hqp, userMaskInstr_reserved hmask false hqp⟩⟩
  rintro rfl
  have hp := predicateHolds_zero s
  exact ⟨userMaskInstr_of_reserved hmask hp true, userMaskInstr_of_reserved hmask hp false⟩

/-- `PSR.up` keeps the value that the instruction writes. -/
theorem userMaskInstr_keeps_up {v : Bool} (h : userMaskInstr v imm24 qp s = .next t) (hup : s.psr.up = v) :
    t.psr.up = v := by
  rw [userMaskInstr_next h]
  dsimp only
  rw [hup, ite_self]

/-- Settles O14: the frame is that of any instruction, and each writes one value only. -/
theorem instructionsChangeOnlyUserEnable : Obligations.InstructionsChangeOnlyUserEnable := by
  intro i s t h
  refine ⟨exec_next h, ?_, ?_⟩
  · rintro imm24 qp rfl hup
    exact userMaskInstr_keeps_up h hup
  · rintro imm24 qp rfl hup
    exact userMaskInstr_keeps_up h hup

end Sys2Proof.Machine
end

section
/-! PROOF. What the pipeline steps store and remove, and the eight qualification modes of Table 6-3. -/

namespace Sys2Proof.Machine

variable {p : Params} {s t : State} {id : InstrId} {r : InFlight} {ip : Addr} {enc : Enc}

/-! ## `Fetch` and `Issue` -/

/-- The record that `Fetch` stores. -/
def fetchedRecord (ip : Addr) (b : Bool) : InFlight := { ip := ip, enc := none, ibrTag := b, tag8 := none, tag9 := none }

theorem fetchStep_ia64 (hfree : findId s.inflight id = none) (fits : ip < 2 ^ p.AW) (his : s.psr.is = false) :
    fetchStep p id ip s = .next (s.setInflight (putId s.inflight id (fetchedRecord ip (ibrRangeTag p s ip)))) := by
  simp [fetchStep, hfree, not_le.2 fits, his, fetchedRecord]

theorem fetchStep_ia32 (hfree : findId s.inflight id = none) (fits : ip < 2 ^ p.AW) (his : s.psr.is = true) :
    fetchStep p id ip s =
      .next ((s.setInflight (putId s.inflight id (fetchedRecord ip (s.drawAt 0)))).addDraws 1) := by
  simp [fetchStep, hfree, not_le.2 fits, his, fetchedRecord]

/-- Settles O15, for either instruction set. -/
theorem fetchStoresTheRangeTag : Obligations.FetchStoresTheRangeTag := by
  intro p s id ip hfree fits
  cases his : s.psr.is with
  | false =>
    exact ⟨_, _, fetchStep_ia64 hfree fits his, findId_putId_same .., fun _ => rfl,
      fun j hj => findId_putId_other _ _ hj, rfl, fun _ => rfl⟩
  | true =>
    exact ⟨_, _, fetchStep_ia32 hfree fits his, findId_putId_same .., nofun,
      fun j hj => findId_putId_other _ _ hj, rfl, nofun⟩

/-- The record that `Issue` stores. -/
def issuedRecord (r : InFlight) (enc : Enc) (b8 b9 : Bool) : InFlight :=
  { r with enc := some enc, tag8 := some b8, tag9 := some b9 }

theorem issueStep_ia64 (hr : findId s.inflight id = some r) (untagged : r.tag8 = none) (his : s.psr.is = false) :
    issueStep p id enc s = .next (s.setInflight (putId s.inflight id
      (issuedRecord r enc (opcodeTag p s.pmc8 enc r) (opcodeTag p s.pmc9 enc r)))) := by
  simp [issueStep, hr, untagged, his, issuedRecord]

theorem issueStep_ia32 (hr : findId s.inflight id = some r) (untagged : r.tag8 = none) (his : s.psr.is = true) :
    issueStep p id enc s = .next ((s.setInflight (putId s.inflight id
      (issuedRecord r enc (s.drawAt 0) (s.drawAt 1)))).addDraws 2) := by
  simp [issueStep, hr, untagged, his, issuedRecord]

/-- Settles O16, for either instruction set. -/
theorem issueStoresBothOpcodeTags : Obligations.IssueStoresBothOpcodeTags := by
  intro p s id enc r hr untagged
  cases his : s.psr.is with
  | false =>
    exact ⟨_, _, _, issueStep_ia64 hr untagged his, findId_putId_same .., fun _ => ⟨rfl, rfl⟩,
      fun j hj => findId_putId_other _ _ hj, rfl, fun _ => rfl⟩
  | true =>
    exact ⟨_, _, _, issueStep_ia32 hr untagged his, findId_putId_same .., nofun,
      fun j hj => findId_putId_other _ _ hj, rfl, nofun⟩

/-! ## `Flush` -/

theorem flushStep_of_found (hr : findId s.inflight id = some r) :
    flushStep id s = .next (s.setInflight (removeId s.inflight id)) := by
  rw [flushStep, hr]

/-- Settles O17. -/
theorem flushRemovesOnlyItsInstruction : Obligations.FlushRemovesOnlyItsInstruction := by
  intro p s id found
  obtain ⟨r, hr⟩ := Option.isSome_iff_exists.1 found
  exact ⟨_, flushStep_of_found hr, findId_removeId_same .., fun j hj => findId_removeId_other _ hj, rfl⟩

/-! ## Table 6-3 -/

theorem runInputs_pair {x y : Input} {u : State} (hx : applyInput p x s = .next u) (hy : applyInput p y u = .next t) :
    runInputs p [x, y] s = .next t :=
  runInputs_cons_next.2 ⟨u, hx, runInputs_cons_next.2 ⟨t, hy, rfl⟩⟩

/-- `Tag(PMC[8])` of an instruction fetched and issued under IA-64 code with these registers. -/
def modeTag (p : Params) (s : State) (ip : Addr) (enc : Enc) : Bool := ibrRangeTag p s ip && p.opmatch s.pmc8 enc

theorem modeTag_of_ta (h : s.pmc13.ta = true) : modeTag p s ip enc = p.opmatch s.pmc8 enc := by
  rw [modeTag, ibrRangeTag, h, Bool.true_or, Bool.true_and]

theorem modeTag_of_not_ta (h : s.pmc13.ta = false) :
    modeTag p s ip enc = (p.inIBRRange s.ibr s.pmc13.rest ip && p.opmatch s.pmc8 enc) := by
  rw [modeTag, ibrRangeTag, h, Bool.false_or]

/-- Fetch and issue under IA-64 code complete and write the in-flight map only. -/
theorem runInputs_fetch_issue (hfree : findId s.inflight id = none) (fits : ip < 2 ^ p.AW) (his : s.psr.is = false) :
    ∃ m b9, runInputs p [.fetch id ip, .issue id enc] s = .next (s.setInflight m) ∧
      findId m id = some (issuedRecord (fetchedRecord ip (ibrRangeTag p s ip)) enc (modeTag p s ip enc) b9) := by
  have issued := issueStep_ia64 (p := p) (s := s.setInflight _) (enc := enc)
    (findId_putId_same s.inflight id (fetchedRecord ip (ibrRangeTag p s ip))) rfl his
  exact ⟨_, _, runInputs_pair (fetchStep_ia64 hfree fits his) issued, findId_putId_same ..⟩

theorem tagOK_memory {o : Occurrence} {b : Bool} {d : Addr} (hc : p.eventClass o.ev = .memory) (h8 : o.tag8 = some b)
    (hd : o.daddr = some d) : tagOK p s o = some (b && dbrRangeTag p s d) := by
  simp only [tagOK, hc, h8, hd]

@[simp] theorem dbrRangeTag_setInflight (m : InFlightMap) (d : Addr) :
    dbrRangeTag p (s.setInflight m) d = dbrRangeTag p s d := rfl

theorem dbrRangeTag_of_pt (h : s.pmc11.pt = true) (d : Addr) : dbrRangeTag p s d = true := by
  rw [dbrRangeTag, h, Bool.true_or]

theorem dbrRangeTag_of_ia64 (h : s.pmc11.pt = false) (his : s.psr.is = false) (d : Addr) :
    dbrRangeTag p s d = p.inDBRRange s.dbr s.pmc11.rest d := by
  rw [dbrRangeTag, h, his, Bool.false_or, if_neg nofun]

/-- Settles O18: fetch and issue store the range check AND the match, of which all ones and `ta` neutralise one each, and leave
the registers that the tag check of a memory event looks at. -/
theorem qualificationModesOfTheTable : Obligations.QualificationModesOfTheTable := by
  intro p s id ip enc his hfree fits
  obtain ⟨m, b9, hrun, hrecord⟩ := runInputs_fetch_issue (enc := enc) hfree fits his
  refine ⟨_, _, modeTag p s ip enc, hrun, hrecord, rfl, fun hta hones => ?_, fun hta hones => ?_, modeTag_of_ta,
    modeTag_of_not_ta, fun ev d u hc => tagOK_eq_tag8 (.inl hc), fun ev d u hc hpt => ?_, fun ev d u hc hpt => ?_⟩
  · rw [modeTag_of_ta hta, hones, p.opmatch_allOnes]
  · rw [modeTag_of_not_ta hta, hones, p.opmatch_allOnes, Bool.and_true]
  · rw [tagOK_memory hc rfl rfl, dbrRangeTag_setInflight, dbrRangeTag_of_pt hpt, Bool.and_true]
  · rw [tagOK_memory hc rfl rfl, dbrRangeTag_setInflight, dbrRangeTag_of_ia64 hpt his]

end Sys2Proof.Machine
end

section
/-! PROOF. Which monitors an event counts at: those that select and admit it, if the tag check of its class holds (R66, R72, R73,
R85, R86). -/

namespace Sys2Proof.Machine

variable {p : Params} {s t : State} {o : Occurrence} {e : EventInput} {id : InstrId} {r : InFlight} {k : Fin 4}

/-! ## The tag check of each class -/

theorem tagOK_untagged (hc : p.eventClass o.ev = .untagged) : tagOK p s o = some true := by
  simp only [tagOK, hc]

/-- Class tagged9 needs `Tag(PMC[9])`, and `Tag(PMC[8])` too where the parameter says so (C9, log 11). -/
theorem tagOK_tagged9 {b8 b9 : Bool} (hc : p.eventClass o.ev = .tagged9) (h8 : o.tag8 = some b8)
    (h9 : o.tag9 = some b9) :
    ∃ tag, tagOK p s o = some tag ∧ (tag = true ↔ b9 = true ∧ (p.tag9AlsoNeedsTag8 = true → b8 = true)) := by
  cases hboth : p.tag9AlsoNeedsTag8 with
  | false => exact ⟨b9, by simp only [tagOK, hc, hboth, h9], by simp⟩
  | true => exact ⟨b8 && b9, by simp only [tagOK, hc, hboth, h8, h9], by simp [and_comm]⟩

/-! ## `Event` -/

/-- An event of an instruction in flight counts as the tag check of its occurrence says. -/
theorem event_counts {tag : Bool} (hd : ∀ a, e.daddr = some a → a < 2 ^ p.AW) (hi : e.instr = some id)
    (hr : findId s.inflight id = some r)
    (htag : tagOK p s { ev := e.ev, instr := some r, daddr := e.daddr, unit := e.unit } = some tag) :
    ∃ t, applyInput p (.event e) s = .next t ∧
      CountedExactly p (fun k => tag = true ∧ MonitorAdmits p s e.ev e.unit k) s t := by
  obtain ⟨t, ht, counted⟩ := occur_of_tagOK htag
  exact ⟨t, (eventStep_of_found hd hi hr).trans ht, counted⟩

/-- Settles O20, by the tag check of each class. -/
theorem instructionEventsCountExactly : Obligations.InstructionEventsCountExactly := by
  intro p s e id r b8 hi hr h8 hd
  refine ⟨fun hc => event_counts hd hi hr ((tagOK_eq_tag8 hc).trans h8), fun b9 h9 hc => ?_⟩
  obtain ⟨tag, htag, passes⟩ := tagOK_tagged9 (p := p) (s := s)
    (o := { ev := e.ev, instr := some r, daddr := e.daddr, unit := e.unit }) hc h8 h9
  obtain ⟨t, ht, counted⟩ := event_counts hd hi hr htag
  exact ⟨t, ht, counted.congr fun k => and_congr_left' passes⟩

/-- Settles O21: the second half of the tag check is the data range tag. -/
theorem memoryEventsNeedTheDataRange : Obligations.MemoryEventsNeedTheDataRange := by
  intro p s e id r b8 a hc hi hr h8 ha fits
  have hd : ∀ d, e.daddr = some d → d < 2 ^ p.AW := fun d hd => Option.some.inj (ha.symm.trans hd) ▸ fits
  obtain ⟨t, ht, counted⟩ := event_counts hd hi hr (tagOK_memory hc h8 ha)
  exact ⟨t, dbrRangeTag p s a, ht, fun hpt => dbrRangeTag_of_pt hpt a, fun hpt his => dbrRangeTag_of_ia64 hpt his a,
    counted.congr fun k => and_congr_left' (Bool.and_eq_true_iff ..)⟩

/-- Settles O22: the tag check of an untagged event always holds. -/
theorem untaggedEventsCountExactly : Obligations.UntaggedEventsCountExactly := by
  intro p s e hc hin hd
  have always (c : Fin 4 → Prop) : ∀ k, (true = true ∧ c k) ↔ c k := fun k => and_iff_right rfl
  cases hi : e.instr with
  | none =>
    obtain ⟨t, ht, counted⟩ := occur_of_tagOK (tagOK_untagged (s := s)
      (o := { ev := e.ev, instr := none, daddr := e.daddr, unit := e.unit }) hc)
    exact ⟨t, (eventStep_of_none hd hi).trans ht, counted.congr (always _)⟩
  | some id =>
    obtain ⟨r, hr⟩ := Option.isSome_iff_exists.1 (hin id hi)
    obtain ⟨t, ht, counted⟩ := event_counts hd hi hr (tagOK_untagged hc)
    exact ⟨t, ht, counted.congr (always _)⟩

/-! ## `Retire` -/

/-- A monitor's own checks do not look at the in-flight map. -/
theorem monitorAdmits_setInflight (m : InFlightMap) (ev : EventId) (un : Option UnitInfo) (k : Fin 4) :
    MonitorAdmits p (s.setInflight m) ev un k ↔ MonitorAdmits p s ev un k :=
  ⟨fun ⟨h1, h2, h3, h4, h5, h6, h7⟩ => ⟨h1, h2, h3, h4, h5, h6, h7⟩,
    fun ⟨h1, h2, h3, h4, h5, h6, h7⟩ => ⟨h1, h2, h3, h4, h5, h6, h7⟩⟩

theorem retireStep_of_found {u : State} (hr : findId s.inflight id = some r) (h8 : r.tag8.isSome = true)
    (h9 : r.tag9.isSome = true)
    (hu : occur p (retirementOccurrence p.taggedRetired8 r) (s.setInflight (removeId s.inflight id)) = .next u) :
    retireStep p id s = occur p (retirementOccurrence p.taggedRetired9 r) u := by
  simp only [retireStep, hr, h8, h9, hu, Bool.and_self, if_true]

/-- Settles O23: the two occurrences of the retirement, each with the tag check of its class. -/
theorem retirementPresentsBothVariants : Obligations.RetirementPresentsBothVariants := by
  intro p s id r b8 b9 hr h8 h9
  obtain ⟨u, hu, first⟩ := occur_of_tagOK (s := s.setInflight (removeId s.inflight id))
    ((tagOK_eq_tag8 (o := retirementOccurrence p.taggedRetired8 r) (.inr p.eventClass_taggedRetired8)).trans h8)
  obtain ⟨tag, htag, passes⟩ := tagOK_tagged9 (s := u) (o := retirementOccurrence p.taggedRetired9 r)
    p.eventClass_taggedRetired9 h8 h9
  obtain ⟨t, ht, second⟩ := occur_of_tagOK htag
  have removed : t.inflight = removeId s.inflight id := second.only.inflight.trans first.only.inflight
  have retired := retireStep_of_found hr (Option.isSome_of_eq_some h8) (Option.isSome_of_eq_some h9) hu
  refine ⟨u, t, retired.trans ht, ?_, fun j hj => ?_, ?_, second.congr fun k => and_congr_left' passes⟩
  · rw [removed, findId_removeId_same]
  · rw [removed, findId_removeId_other _ hj]
  · rw [removed]
    exact first.congr fun k => and_congr_right' (monitorAdmits_setInflight ..)

/-! ## Selection -/

theorem occur_keeps_unselected (h : occur p o s = .next t) (hk : (s.pmc.get k).es ≠ o.ev) :
    t.pmd.get k = s.pmd.get k ∧ t.pmc = s.pmc := by
  obtain ⟨_, -, counted⟩ := occur_next h
  exact ⟨counted.keeps k fun hadm => hk hadm.2.selected, counted.only.pmc⟩

theorem retireStep_keeps_unselected (h : retireStep p id s = .next t) (h8 : (s.pmc.get k).es ≠ p.taggedRetired8)
    (h9 : (s.pmc.get k).es ≠ p.taggedRetired9) : t.pmd.get k = s.pmd.get k := by
  obtain ⟨r, u, -, -, -, hu, ht⟩ := retireStep_next h
  obtain ⟨first, hpmc⟩ := occur_keeps_unselected hu h8
  obtain ⟨second, -⟩ := occur_keeps_unselected ht (hpmc ▸ h9)
  exact second.trans first

/-- Settles O29: what a monitor does not select does not count it, and the monitors' checks are each its own. -/
theorem monitorsCountTheirSelectedEvent : Obligations.MonitorsCountTheirSelectedEvent := by
  refine ⟨fun p e s t k h hk => (occur_keeps_unselected (eventStep_next h).2 hk).1,
    fun p id s t k h h8 h9 => retireStep_keeps_unselected h h8 h9, fun p e s t j k hc h hj _ hk => ?_⟩
  obtain ⟨tag, htag, counted⟩ := occur_next (eventStep_next h).2
  rw [tagOK_untagged hc, Option.some.injEq] at htag
  exact ⟨counted.counts j ⟨htag.symm, hj⟩, counted.keeps k fun hadm => hk hadm.2⟩

end Sys2Proof.Machine
end

section
/-! PROOF. The software operations and interruptions: what each writes at level 0, and that the privileged ones are refused at
the other levels (R102 to R109, R120, R125). -/

namespace Sys2Proof.Machine

variable {p : Params} {s : State} {k : Fin 4}

/-- Settles O37: each passes the privilege gate. -/
theorem privilegedOperationsAreRefusedAboveLevelZero : Obligations.PrivilegedOperationsAreRefusedAboveLevelZero :=
  fun _ _ h => ⟨fun _ => privileged_other h _, fun _ _ => privileged_other h _, fun _ => privileged_other h _,
    fun _ => privileged_other h _, fun _ => privileged_other h _, fun _ => privileged_other h _⟩

theorem monitorAt_of_no_monitor {i : Nat} (h : ∀ k, p.monitorIndex.get k ≠ i) : p.monitorAt i = none := by
  cases hk : p.monitorAt i with
  | none => rfl
  | some k => exact absurd (Params.monitorIndex_of_monitorAt hk) (h k)

theorem writePMCStep_monitor (h0 : s.psr.cpl = 0#2) (k : Fin 4) (v : PMCGeneric) :
    writePMCStep p (.pmc (p.monitorIndex.get k) v) s = .next (s.setMonitor k v) := by
  rw [writePMCStep, privileged_level0 h0, p.monitorAt_monitorIndex]

theorem writePMCStep_no_monitor {i : Nat} (h0 : s.psr.cpl = 0#2) (h : ∀ k, p.monitorIndex.get k ≠ i)
    (v : PMCGeneric) : writePMCStep p (.pmc i v) s = .refused .noSuchMonitor := by
  rw [writePMCStep, privileged_level0 h0, monitorAt_of_no_monitor h]

/-- Settles O38: at level 0 the gate opens, and each register has its own arm. -/
theorem writePMCReplacesTheRegister : Obligations.WritePMCReplacesTheRegister := by
  intro p s h0
  refine ⟨fun _ => privileged_level0 h0 _, fun _ => privileged_level0 h0 _, fun _ => privileged_level0 h0 _,
    fun _ => privileged_level0 h0 _, fun _ => privileged_level0 h0 _, fun k v => ?_,
    fun i v h => writePMCStep_no_monitor h0 h v⟩
  exact ⟨_, writePMCStep_monitor h0 k v, Four.get_set_same .., fun j hj => Four.get_set_other _ _ hj, rfl⟩

theorem writePMDStep_monitor {v : Nat} (h0 : s.psr.cpl = 0#2) (k : Fin 4) (fits : v < 2 ^ p.CW) :
    writePMDStep p (p.monitorIndex.get k) v s = .next (s.setCounter k v) := by
  rw [writePMDStep, privileged_level0 h0, p.monitorAt_monitorIndex]
  exact if_pos fits

theorem writePMDStep_wide {v : Nat} (h0 : s.psr.cpl = 0#2) (k : Fin 4) (wide : ¬ v < 2 ^ p.CW) :
    writePMDStep p (p.monitorIndex.get k) v s = .refused .counterTooWide := by
  rw [writePMDStep, privileged_level0 h0, p.monitorAt_monitorIndex]
  exact if_neg wide

theorem writePMDStep_no_monitor {i : Nat} (h0 : s.psr.cpl = 0#2) (h : ∀ k, p.monitorIndex.get k ≠ i) (v : Nat) :
    writePMDStep p i v s = .refused .noSuchMonitor := by
  rw [writePMDStep, privileged_level0 h0, monitorAt_of_no_monitor h]

theorem readPMD_monitorIndex (s : State) (k : Fin 4) : readPMD p (p.monitorIndex.get k) s = some (s.pmd.get k) := by
  rw [readPMD, p.monitorAt_monitorIndex, Option.map_some]

/-- Every other register number reads what it read. -/
theorem readPMD_setCounter_other {i : Nat} (hi : i ≠ p.monitorIndex.get k) (v : Nat) :
    readPMD p i (s.setCounter k v) = readPMD p i s := by
  unfold readPMD
  cases hj : p.monitorAt i with
  | none => rfl
  | some j =>
    have other : j ≠ k := fun e => hi (e ▸ (Params.monitorIndex_of_monitorAt hj).symm)
    rw [Option.map_some, Option.map_some, State.setCounter_pmd, Four.get_set_other _ _ other]

/-- Settles O39, by the cases of the register number and the width of the value. -/
theorem writtenCounterReadsBack : Obligations.WrittenCounterReadsBack := by
  intro p s v h0
  refine ⟨fun k fits => ?_, fun k wide => writePMDStep_wide h0 k wide, fun i h => writePMDStep_no_monitor h0 h v⟩
  refine ⟨_, writePMDStep_monitor h0 k fits, ?_, fun i hi => readPMD_setCounter_other hi v, rfl⟩
  rw [readPMD_monitorIndex, State.setCounter_pmd, Four.get_set_same]

/-- Settles O40: at level 0 the gate opens. -/
theorem rangeAndDefaultControlWrites : Obligations.RangeAndDefaultControlWrites :=
  fun _ _ h0 => ⟨fun _ => privileged_level0 h0 _, fun _ => privileged_level0 h0 _, fun _ => privileged_level0 h0 _⟩

/-- Settles O41: the first passes the gate, the other two have none. -/
theorem statusWritesChangeOnlyTheirFields : Obligations.StatusWritesChangeOnlyTheirFields :=
  fun _ _ => ⟨fun _ h0 => privileged_level0 h0 _, fun _ => rfl, fun _ => rfl⟩

/-- A second delivery finds `PSR.up` and DCR as the first found them. -/
theorem takeInterruption_nested (p : Params) (s : State) :
    takeInterruption p (takeInterruption p s) = takeInterruption p s := rfl

/-- Delivery touches PSR only, so restoring PSR undoes it. -/
theorem installPSR_takeInterruption (p : Params) (s : State) : installPSR s.psr (takeInterruption p s) = s := rfl

/-- The handler runs at level 0, where it may restore PSR (R125). -/
theorem restorePSR_in_handler (p : Params) (v : PSR) (s : State) :
    applyInput p (.restorePSR v) (takeInterruption p s) = .next (installPSR v (takeInterruption p s)) :=
  privileged_level0 (s := takeInterruption p s) rfl _

/-- Settles O44. -/
theorem interruptionDeliveryAndReturn : Obligations.InterruptionDeliveryAndReturn := by
  intro p s
  refine ⟨rfl, runInputs_pair rfl ?_, runInputs_pair rfl ?_⟩
  · exact congrArg Host.Outcome.next (takeInterruption_nested p s)
  · rw [restorePSR_in_handler, installPSR_takeInterruption]

end Sys2Proof.Machine
end
